-- ==== Sys2Proof/Word.lean ====
section
/-! DEFINITION. The block's values: nibbles, bytes and beats (30_encoding R80, R83; 00_scope R8, R10). -/

namespace Sys2Proof

/-- One half of a byte, `bits(4)` (R80). -/
abbrev Nibble := BitVec 4

/-- `bits(8)` (R80). -/
abbrev Byte := BitVec 8

/-- One transfer on a stream port, `DATA(payload)` or `END` (R83). The spec lets a model use these two
constructors (92_eei_decisions D3); on the pins it is a `PinBeat`. -/
inductive Beat (α : Type) where
  /-- `DATA(payload)`: the `end` bit is 0. -/
  | data (payload : α)
  /-- `END`: the `end` bit is 1. -/
  | endBeat
  deriving DecidableEq, Repr

/-- The two fields of a beat as the pins carry them (R83): the `end` bit above `n` payload bits. -/
structure PinBeat (n : Nat) where
  /-- The bit `end`. -/
  isEnd : BitVec 1
  /-- The payload bits, present on an `END` too. -/
  payload : BitVec n
  deriving DecidableEq, Repr

/-- All sixteen nibble values, 0 to 15 in order: the addresses of the alphabet ROM (20_memory R50, R58). -/
def allNibbles : List Nibble :=
  [0, 1, 2, 3, 4, 5, 6, 7, 8, 9, 10, 11, 12, 13, 14, 15]

end Sys2Proof
end

