-- ==== Sys2Proof/Config.lean ====
section
/-! DEFINITION. What is fixed when the block is built, and the values the spec leaves open: the two open
parameters `SYMW` and `ALPHABET` (00_scope R6, R7; 10_state R24, R25; 92_eei_decisions D4, D5) and the free
values (93_implementation_defined U11 to U13). -/

namespace Sys2Proof

/-- The alphabet table: the symbol of each of the 16 nibble values, pairwise distinct (R24, R25 (a)). A table that
breaks the invariant is no configuration of the block, so the proof is part of the value. `w` is `SYMW`. -/
structure Alphabet (w : Nat) where
  /-- `ALPHABET[v]` (R24). -/
  symbol : Nibble → BitVec w
  /-- All 16 entries are pairwise distinct (R25 (a)). -/
  distinct : ∀ i j : Nibble, symbol i = symbol j → i = j

/-- The spec's own test table `TA[v] = 0x1F600 + v` (R6): for vectors only, never the machine's alphabet. -/
def testAlphabet : Alphabet 21 where
  symbol v := 0x1F600#21 + v.setWidth 21
  distinct := by decide

/-- An alphabet exists at every width the spec allows (R7): the nibbles themselves. It says that `Alphabet` is inhabited there and
is never the machine's alphabet. -/
def Alphabet.ofNibbles (w : Nat) (hw : 4 ≤ w) : Alphabet w where
  symbol v := v.setWidth w
  distinct i j h := by
    have hn := congrArg BitVec.toNat h
    have hp : 2 ^ 4 ≤ 2 ^ w := Nat.pow_le_pow_right (by decide) hw
    have hi := i.isLt
    have hj := j.isLt
    rw [BitVec.toNat_setWidth, BitVec.toNat_setWidth, Nat.mod_eq_of_lt (by omega), Nat.mod_eq_of_lt (by omega)] at hn
    exact BitVec.eq_of_toNat_eq hn

namespace Config

/-- Free choice of a width, with no body: by how much `SYMW` is more than the 4 bits it needs (R7, D4; log 1). -/
opaque symwAboveFour : Nat

/-- `SYMW`, the width of a symbol and of a text unit: any number from 4 up (R7). Nothing else is known of it, so what is proved of
the machine is proved for every width the spec allows (log 1, safe). -/
abbrev SYMW : Nat := symwAboveFour + 4

end Config

/-- A text unit of the machine: any value of `bits(SYMW)`, recognised or not (R81). -/
abbrev TextUnit := BitVec Config.SYMW

namespace Config

/-- Free choice of an alphabet, with no body: nothing is known of the 16 values but that they are distinct (R6, D5). -/
opaque alphabetChoice [Inhabited (Alphabet SYMW)] : Alphabet SYMW

/-- `ALPHABET`, the one table of both units (R24, R25 (b)): a constant whose values no proof can see (log 2, safe). -/
def ALPHABET : Alphabet SYMW := @alphabetChoice ⟨Alphabet.ofNibbles SYMW (Nat.le_add_left 4 symwAboveFour)⟩

/-- FREE VALUE (log 4, safe): the bit of `DEC.phase` at power-on, before the first `RESET` (R250, U12). -/
opaque powerOnPhaseBit : BitVec 1

/-- FREE VALUE (log 4, safe): `DEC.hold` at power-on, before the first `RESET` (R250, U12). -/
opaque powerOnHold : Nibble

/-- FREE VALUE (log 5, safe): what `s2n_v` shows on a miss, after the n-th step (R111, D17, U13). -/
opaque s2nMiss : Nat → Nibble

end Config
end Sys2Proof
end

