-- ==== Sys2Proof/Syntax.lean ====
section
/-! DEFINITION. The operations of the block and the rows of its code table: one constructor for each row of
spec/opcode_table.json, in the table's order (30_encoding R84, R86). -/

namespace Sys2Proof

/-- What an input selects (R84). Operands have the spec's widths, so every term is well formed: a byte is 8 bits, a
unit `SYMW` bits, a nibble 4 bits, and no value of any of them is reserved (R87). -/
inductive Instr where
  /-- `ENC.PUT b`: encode one byte (41_encoder R130). -/
  | encPut (b : Byte)
  /-- `ENC.END`: close the message on `enc_in` (41_encoder R131). -/
  | encEnd
  /-- `DEC.PUT u`: take in one unit (42_decoder R150). -/
  | decPut (u : TextUnit)
  /-- `DEC.END`: close the text on `dec_in` (42_decoder R151). -/
  | decEnd
  /-- `RESET` (43_system R180). -/
  | reset
  /-- `N2S v`: nibble to symbol (40_alphabet_lookup R110). -/
  | n2s (v : Nibble)
  /-- `S2N u`: symbol to nibble (40_alphabet_lookup R111). -/
  | s2n (u : TextUnit)
  /-- Row 0 of the code table (R86); the rows below are 1 to 15. -/
  | sym0
  | sym1
  | sym2
  | sym3
  | sym4
  | sym5
  | sym6
  | sym7
  | sym8
  | sym9
  | sym10
  | sym11
  | sym12
  | sym13
  | sym14
  | sym15
  deriving DecidableEq, Repr

end Sys2Proof
end

