-- ==== Sys2Proof/WellFormed.lean ====
section
/-! DEFINITION. The checks of the model. Every term of `Instr` is well formed by its operands' types (R84, R87), so what
can be ill formed stands before the block runs: its configuration (10_state R25, 00_scope R7, 60_exceptions R234, U9) and a
word that is too wide for its port (10_state R31). -/

namespace Sys2Proof

/-- Why a configuration is refused (R234: the only refusals are at configuration time). -/
inductive ConfigError where
  /-- `SYMW < 4` (R7). -/
  | symwTooSmall
  /-- Two entries of the table are equal (R25 (a), U9). -/
  | repeatedEntry
  deriving DecidableEq, Repr

/-- The entries of a written-out table are pairwise distinct (R25 (a)). -/
abbrev TableDistinct {w : Nat} (t : Vector (BitVec w) 16) : Prop :=
  ∀ i j : Nibble, t[i.toNat] = t[j.toNat] → i = j

/-- Build the block's configuration from `SYMW` and the 16 values of its table, or refuse it by name (R7, R25, R234). -/
def Alphabet.ofTable (w : Nat) (t : Vector (BitVec w) 16) : Except ConfigError (Alphabet w) :=
  if w < 4 then .error .symwTooSmall
  else if h : TableDistinct t then .ok { symbol := fun v => t[v.toNat], distinct := h }
  else .error .repeatedEntry

/-- Where an input arrives (10_state R31, 30_encoding R84). `code` is not a port of the block: it stands for the rows of the
code table, whose format the opcode table calls CODE (log 9). -/
inductive Port where
  | rst
  | encIn
  | decIn
  | n2sV
  | s2nU
  | code
  deriving DecidableEq, Repr

/-- Width in bits of a port when a unit has `symw` bits (R31, R83; for `code` the 4 bits of the opcode table's CODE rows). -/
def Port.widthAt (symw : Nat) : Port → Nat
  | .rst => 1
  | .encIn => 9
  | .decIn => symw + 1
  | .n2sV => 4
  | .s2nU => symw
  | .code => 4

/-- A number that the port's wires can carry when a unit has `symw` bits. -/
abbrev Port.FitsAt (symw : Nat) (p : Port) (w : Nat) : Prop := w < 2 ^ p.widthAt symw

/-- A number that the wires of the machine's port can carry. -/
abbrev Port.Fits (p : Port) (w : Nat) : Prop := p.FitsAt Config.SYMW w

end Sys2Proof
end

