-- ==== Sys2Proof/Decode.lean ====
section
/-! DEFINITION. From pin words to operations and back: beat formats and operation selection (30_encoding R83, R84),
total, with a name for each rejection; then the encoder, from the same table. -/

namespace Sys2Proof

/-- The fields of a beat's word (R83): bit `n` is `end`, bits `n-1:0` the payload. -/
def PinBeat.ofWord {n : Nat} (w : BitVec (n + 1)) : PinBeat n :=
  { isEnd := BitVec.ofBool (w.getLsbD n), payload := w.setWidth n }

/-- The number on a beat's wires (R83, 00_scope R10). -/
def PinBeat.toNat {n : Nat} (b : PinBeat n) : Nat := b.isEnd.toNat * 2 ^ n + b.payload.toNat

/-- A beat's word (R83). -/
def PinBeat.toWord {n : Nat} (b : PinBeat n) : BitVec (n + 1) := BitVec.ofNat (n + 1) b.toNat

/-- The beat that the pins carry (R83): with `end = 1` the payload bits are ignored. -/
def Beat.ofPins {n : Nat} (b : PinBeat n) : Beat (BitVec n) :=
  if b.isEnd = 1 then .endBeat else .data b.payload

/-- What an output port drives for a beat (R83): payload bits 0 on `END`. -/
def Beat.toPins {n : Nat} : Beat (BitVec n) → PinBeat n
  | .data p => { isEnd := 0, payload := p }
  | .endBeat => { isEnd := 1, payload := 0 }

/-- One input as the pins carry it (R31, R83, R84). -/
inductive Input where
  /-- A rising clock edge with the given level on `rst`. -/
  | rst (level : BitVec 1)
  /-- A `BYTE_BEAT` transferred on `enc_in`. -/
  | encIn (beat : PinBeat 8)
  /-- A `SYM_BEAT` transferred on `dec_in`. -/
  | decIn (beat : PinBeat Config.SYMW)
  /-- A nibble driven on the tap input `n2s_v`. -/
  | n2sV (v : Nibble)
  /-- A unit driven on the tap input `s2n_u`. -/
  | s2nU (u : TextUnit)
  /-- A row of the code table (R86, log 9). -/
  | code (v : Nibble)
  deriving DecidableEq, Repr

/-- The port an input arrives at (R31). -/
def Input.port : Input → Port
  | .rst _ => .rst
  | .encIn _ => .encIn
  | .decIn _ => .decIn
  | .n2sV _ => .n2sV
  | .s2nU _ => .s2nU
  | .code _ => .code

/-- The number on the port's wires, bit 0 least significant (00_scope R10). -/
def Input.toNat : Input → Nat
  | .rst level => level.toNat
  | .encIn beat => beat.toNat
  | .decIn beat => beat.toNat
  | .n2sV v => v.toNat
  | .s2nU u => u.toNat
  | .code v => v.toNat

/-- Why a word is no operation. No beat is ever rejected (R84, R87). -/
inductive Reject where
  /-- An edge with `rst = 0`: `RESET` needs 1 (R84), so nothing is selected. -/
  | noOperation
  /-- The number has a bit above the port's width, which no wire carries (R31). -/
  | wordTooWide (p : Port)
  /-- No row of the opcode table has this number of bits. -/
  | noSuchWidth (nbits : Nat)
  deriving DecidableEq, Repr

/-- The code table's row for a nibble value (R86). -/
def symRow (v : Nibble) : Instr :=
  match v.toNat with
  | 0 => .sym0
  | 1 => .sym1
  | 2 => .sym2
  | 3 => .sym3
  | 4 => .sym4
  | 5 => .sym5
  | 6 => .sym6
  | 7 => .sym7
  | 8 => .sym8
  | 9 => .sym9
  | 10 => .sym10
  | 11 => .sym11
  | 12 => .sym12
  | 13 => .sym13
  | 14 => .sym14
  | _ => .sym15

/-- Operation selection (R84). -/
def decode : Input → Except Reject Instr
  | .rst level => if level = 1 then .ok .reset else .error .noOperation
  | .encIn beat =>
    match Beat.ofPins beat with
    | .data b => .ok (.encPut b)
    | .endBeat => .ok .encEnd
  | .decIn beat =>
    match Beat.ofPins beat with
    | .data u => .ok (.decPut u)
    | .endBeat => .ok .decEnd
  | .n2sV v => .ok (.n2s v)
  | .s2nU u => .ok (.s2n u)
  | .code v => .ok (symRow v)

/-- A port and a number on its wires as an input, or the rejection, the wires being laid out for units of `symw` bits (R83). The unit
is the number in the payload field, in the machine's width. -/
def Input.readAt (symw : Nat) (p : Port) (w : Nat) : Except Reject Input :=
  if p.FitsAt symw w then
    match p with
    | .rst => .ok (.rst (BitVec.ofNat 1 w))
    | .encIn => .ok (.encIn { isEnd := BitVec.ofNat 1 (w / 2 ^ 8), payload := BitVec.ofNat 8 (w % 2 ^ 8) })
    | .decIn => .ok (.decIn
        { isEnd := BitVec.ofNat 1 (w / 2 ^ symw), payload := BitVec.ofNat Config.SYMW (w % 2 ^ symw) })
    | .n2sV => .ok (.n2sV (BitVec.ofNat 4 w))
    | .s2nU => .ok (.s2nU (BitVec.ofNat Config.SYMW w))
    | .code => .ok (.code (BitVec.ofNat 4 w))
  else .error (.wordTooWide p)

/-- A port of the machine and a number on its wires as an input, or the rejection. -/
def Input.ofNat (p : Port) (w : Nat) : Except Reject Input := Input.readAt Config.SYMW p w

/-- The width of a unit for which spec/opcode_table.json shows its patterns: the default of 00_scope R7. -/
def tableSymw : Nat := 21

/-- The port a word of the opcode table arrives at, by its number of bits (as the table has it, or rounded up to whole
bytes). DESIGN CHOICE (log 10): the table's rows overlap across ports, so where two rows share a word of that width a row
with fixed bits goes before a row without (`DEC.PUT` before `S2N`, `SYM<v>` before `N2S`), and the operation `RESET`
before the code row `SYM1`. -/
def tablePort (nbits w : Nat) : Except Reject Port :=
  match nbits with
  | 1 => .ok .rst
  | 4 => .ok .code
  | 8 => if w = 1 then .ok .rst else .ok .code
  | 9 => .ok .encIn
  | 16 => .ok .encIn
  | 21 => .ok .s2nU
  | 22 => .ok .decIn
  | 24 => .ok .decIn
  | n => .error (.noSuchWidth n)

/-- The input that a word of the opcode table is, the word being laid out for units of 21 bits as the table shows it (log 10). -/
def tableInput (nbits w : Nat) : Except Reject Input :=
  match tablePort nbits w with
  | .ok p => Input.readAt tableSymw p w
  | .error r => .error r

/-- The instruction the decoder reads from a word of the opcode table. -/
def decodeTableWord (nbits w : Nat) : Option Instr :=
  match tableInput nbits w with
  | .ok i =>
    match decode i with
    | .ok instr => some instr
    | .error _ => none
  | .error _ => none

/-- The pins of an operation (R83, R84, R86), written from the opcode table's patterns; ignored payload bits 0. -/
def encode : Instr → Input
  | .encPut b => .encIn { isEnd := 0, payload := b }
  | .encEnd => .encIn { isEnd := 1, payload := 0 }
  | .decPut u => .decIn { isEnd := 0, payload := u }
  | .decEnd => .decIn { isEnd := 1, payload := 0 }
  | .reset => .rst 1
  | .n2s v => .n2sV v
  | .s2n u => .s2nU u
  | .sym0 => .code 0
  | .sym1 => .code 1
  | .sym2 => .code 2
  | .sym3 => .code 3
  | .sym4 => .code 4
  | .sym5 => .code 5
  | .sym6 => .code 6
  | .sym7 => .code 7
  | .sym8 => .code 8
  | .sym9 => .code 9
  | .sym10 => .code 10
  | .sym11 => .code 11
  | .sym12 => .code 12
  | .sym13 => .code 13
  | .sym14 => .code 14
  | .sym15 => .code 15

end Sys2Proof
end

