-- ==== Sys2Proof/Machine/State.lean ====
section
/-! DEFINITION. The state: the block's two registers (10_state R20 to R22) and, apart from them, its ports at one step (R31; log 6).
The streams and their schedule are no part of it (R34). All of it is plain data. -/

namespace Sys2Proof.Machine

/-- `DEC.phase` (R21): which half of a byte the next recognised unit supplies. -/
inductive Phase where
  /-- 0: the high nibble. -/
  | HI
  /-- 1: the low nibble; the high one is in `DEC.hold`. -/
  | LO
  deriving DecidableEq, Repr

/-- The spec's encoding of the phase bit (R21, D8); no port shows it. -/
def Phase.toBit : Phase → BitVec 1
  | .HI => 0
  | .LO => 1

/-- The phase a bit encodes (R21, D8). -/
def Phase.ofBit (b : BitVec 1) : Phase := if b = 0 then .HI else .LO

/-- The whole architectural state of the block: two registers, both of DEC (R20). ENC has none (R23). -/
structure Block where
  /-- `DEC.phase` (R21). -/
  phase : Phase
  /-- `DEC.hold` (R22): the high nibble of the byte being assembled; read only in phase `LO`. -/
  hold : Nibble
  deriving DecidableEq, Repr

/-- The two registers as the one value R22 describes: `none` in phase `HI`, `some hold` in phase `LO`. -/
def Block.pending (b : Block) : Option Nibble :=
  match b.phase with
  | .HI => none
  | .LO => some b.hold

/-- The block's ports at one step (R31): what is presented to it, what its last operation emitted, and the levels on the taps. No
stream and no schedule is kept here (R34; log 6). -/
structure Ports where
  /-- The level of `rst` at the coming edge, if the environment pulses it (R31, R180; logs 11 and 18). -/
  rst : Option (BitVec 1)
  /-- The one other input that is presented and not yet taken, if any; the host's step has no other argument (R31, R33; logs 6, 18). -/
  offered : Option Input
  /-- The beats the last step emitted on `enc_out`, in order (R33; 41_encoder R130: two at most). -/
  encOut : List (Beat TextUnit)
  /-- The beats the last step emitted on `dec_out` (R33). -/
  decOut : List (Beat Byte)
  /-- Tap input `n2s_v` (R31): the level last looked at (log 19). -/
  n2sV : Nibble
  /-- Tap input `s2n_u` (R31): the level last looked at (log 19). -/
  s2nU : TextUnit
  /-- The model's own counter of steps; picks the free value of a miss (log 5). -/
  sample : Nat
  deriving DecidableEq, Repr

/-- The block's registers and its ports. The streams, the schedule and the wires are the environment's, in `Session` (R34). -/
structure State where
  /-- The block's registers (R20). -/
  block : Block
  /-- The block's ports (R31). -/
  ports : Ports
  deriving DecidableEq, Repr

/-- Faults: none. No operation of the block can fail (60_exceptions R220, R234), so the type has no constructor and no
meaning can raise one; that is the spec's own word and no simplification. -/
inductive Fault where
  deriving DecidableEq, Repr

/-- Refusals. No beat is refused (R234); the refusals of the spec are at configuration time (`Alphabet.ofTable`). -/
inductive Refusal where
  /-- An instruction with no meaning yet, named by its mnemonic: raised by an arm of `exec` alone; safe, since the machine
  stops. No arm raises it. -/
  | notModelled (mnemonic : String)
  deriving DecidableEq, Repr

/-- The ports at the start: nothing presented (log 13), nothing emitted, tap inputs at 0 (DESIGN CHOICE, log 7). -/
def Ports.initial : Ports where
  rst := none
  offered := none
  encOut := []
  decOut := []
  n2sV := 0
  s2nU := 0
  sample := 0

/-- The machine right after `RESET` (R180, R251): `DEC.phase = HI`. `DEC.hold` is 0 by DESIGN CHOICE (log 3, unsafe): the spec leaves it
unspecified (R22), and no operation reads it before it is written. -/
def State.reset : State where
  block := { phase := .HI, hold := 0 }
  ports := Ports.initial

/-- The machine at power-on, before the first `RESET`: both registers are free values (R250, U12; log 4). -/
def State.powerOn : State where
  block := { phase := Phase.ofBit Config.powerOnPhaseBit, hold := Config.powerOnHold }
  ports := Ports.initial

/-- What an operation ends in. The host's form; here always a next state (R220). -/
abbrev Result := Host.Outcome State Fault Refusal

end Sys2Proof.Machine
end

