-- ==== Sys2Proof/Machine/Operands.lean ====
section
/-! DEFINITION. The only operand assembly of the block: splitting a byte and joining two nibbles (30_encoding R80, R85). -/

namespace Sys2Proof.Machine

/-- `b[7:4]` (R80, R85). -/
def hiNibble (b : Byte) : Nibble := b.extractLsb' 4 4

/-- `b[3:0]` (R80, R85). -/
def loNibble (b : Byte) : Nibble := b.extractLsb' 0 4

/-- `hi * 16 + lo`: the byte whose bits 7:4 are `hi` and whose bits 3:0 are `lo` (R85). -/
def joinNibbles (hi lo : Nibble) : Byte := hi ++ lo

end Sys2Proof.Machine
end

