-- ==== Sys2Proof/Machine/Ops.lean ====
section
/-! DEFINITION. The named primitives of the rules (00_scope R12): `RomRead`, `N2S`, `S2N`, the registers, `Emit`, and what the
environment does at the ports (10_state R31, R33). There is no memory write (20_memory R52), no exception entry and no return
from one (60_exceptions R225, R226). -/

namespace Sys2Proof.Machine

/-- `RomRead(v)`: the one memory read of the block, total and without effect (20_memory R51). -/
def romRead {w : Nat} (A : Alphabet w) (v : Nibble) : BitVec w := A.symbol v

/-- `N2S(v) = RomRead(v)` (40_alphabet_lookup R110). -/
def n2s {w : Nat} (A : Alphabet w) (v : Nibble) : BitVec w := romRead A v

/-- `S2N(u)`: the nibble whose symbol equals `u` in all its bits, or none (R111, R112; D17 gives the optional type). The search
order is of no account (R113). -/
def s2n {w : Nat} (A : Alphabet w) (u : BitVec w) : Option Nibble :=
  allNibbles.find? fun v => romRead A v == u

/-- A step begins: nothing is emitted yet, and the next free value stands ready for a miss (log 5). -/
def State.beginStep (s : State) : State :=
  { s with ports := { s.ports with encOut := [], decOut := [], sample := s.ports.sample + 1 } }

/-- `Emit(enc_out, b)` (R33): one beat more of this step. -/
def State.emitEnc (b : Beat TextUnit) (s : State) : State :=
  { s with ports := { s.ports with encOut := s.ports.encOut ++ [b] } }

/-- `Emit(dec_out, b)` (R33). -/
def State.emitDec (b : Beat Byte) (s : State) : State :=
  { s with ports := { s.ports with decOut := s.ports.decOut ++ [b] } }

/-- `DEC.phase <- p` (R21). -/
def State.setPhase (p : Phase) (s : State) : State :=
  { s with block := { s.block with phase := p } }

/-- `DEC.hold <- v` (R22). -/
def State.setHold (v : Nibble) (s : State) : State :=
  { s with block := { s.block with hold := v } }

/-- The level presented on `n2s_v` reaches the tap (R31; log 19). -/
def State.driveN2s (v : Nibble) (s : State) : State :=
  { s with ports := { s.ports with n2sV := v } }

/-- The level presented on `s2n_u` reaches the tap (R31; log 19). -/
def State.driveS2n (u : TextUnit) (s : State) : State :=
  { s with ports := { s.ports with s2nU := u } }

/-- The level of `rst` that an input puts on the pin: an input on another port comes with none (log 18). -/
def resetLevel : Input → Option (BitVec 1)
  | .rst level => some level
  | .encIn _ => none
  | .decIn _ => none
  | .n2sV _ => none
  | .s2nU _ => none
  | .code _ => none

/-- The environment presents an input (R31, R33). `rst` has a pin of its own, so that a beat offered stays offered beside it (43_system
R180). DESIGN CHOICE (log 18): any other input replaces the one that is presented and not yet taken, and a level of `rst` with it. The
spec does not say whether the environment may withdraw or replace what it presents. DESIGN CHOICE (log 19): a level presented on a tap
waits here like a beat, and is at the tap from the step that looks at it on. The spec gives the taps no handshake and no order against
`RESET`, and calls their outputs combinational (R31). -/
def State.offer (x : Input) (s : State) : State :=
  { s with ports := { s.ports with
      rst := resetLevel x
      offered := if (resetLevel x).isSome then s.ports.offered else some x } }

/-- The input that the coming edge looks at: `rst` before all others (10_state R32, 43_system R180). -/
def State.presented (s : State) : Option Input :=
  match s.ports.rst with
  | some level => some (.rst level)
  | none => s.ports.offered

/-- The edge has looked at its input: a beat offered at an edge with `rst` is not accepted and stays offered (43_system R180); otherwise
the input offered is taken (R33). -/
def State.take (s : State) : State :=
  { s with ports := { s.ports with
      rst := none
      offered := if s.ports.rst.isSome then s.ports.offered else none } }

/-- What `DEC.PUT` does with its unit (42_decoder R150). -/
def State.takeUnit (u : TextUnit) (s : State) : State :=
  match s2n Config.ALPHABET u with
  | none => s
  | some v =>
    match s.block.phase with
    | .HI => (s.setHold v).setPhase .LO
    | .LO => (s.emitDec (.data (joinNibbles s.block.hold v))).setPhase .HI

/-- Row `v` of the code table, read in both directions at the taps (30_encoding R86; log 9). -/
def State.showRow (v : Nibble) (s : State) : State :=
  (s.driveN2s v).driveS2n (n2s Config.ALPHABET v)

end Sys2Proof.Machine
end

