-- ==== Sys2Proof/Machine/CodeTable.lean ====
section
/-! DEFINITION. The sixteen rows of the code table (30_encoding R86): row `v` says that nibble `v` is written as `ALPHABET[v]` and
`ALPHABET[v]` is read as nibble `v`. Taken as an operation, a row is shown at both taps (log 9). -/

namespace Sys2Proof.Machine

/-- Row 0 (R86). -/
def execSym0 (s : State) : Result := .next (s.beginStep.showRow 0)

/-- Row 1 (R86). -/
def execSym1 (s : State) : Result := .next (s.beginStep.showRow 1)

/-- Row 2 (R86). -/
def execSym2 (s : State) : Result := .next (s.beginStep.showRow 2)

/-- Row 3 (R86). -/
def execSym3 (s : State) : Result := .next (s.beginStep.showRow 3)

/-- Row 4 (R86). -/
def execSym4 (s : State) : Result := .next (s.beginStep.showRow 4)

/-- Row 5 (R86). -/
def execSym5 (s : State) : Result := .next (s.beginStep.showRow 5)

/-- Row 6 (R86). -/
def execSym6 (s : State) : Result := .next (s.beginStep.showRow 6)

/-- Row 7 (R86). -/
def execSym7 (s : State) : Result := .next (s.beginStep.showRow 7)

/-- Row 8 (R86). -/
def execSym8 (s : State) : Result := .next (s.beginStep.showRow 8)

/-- Row 9 (R86). -/
def execSym9 (s : State) : Result := .next (s.beginStep.showRow 9)

/-- Row 10 (R86). -/
def execSym10 (s : State) : Result := .next (s.beginStep.showRow 10)

/-- Row 11 (R86). -/
def execSym11 (s : State) : Result := .next (s.beginStep.showRow 11)

/-- Row 12 (R86). -/
def execSym12 (s : State) : Result := .next (s.beginStep.showRow 12)

/-- Row 13 (R86). -/
def execSym13 (s : State) : Result := .next (s.beginStep.showRow 13)

/-- Row 14 (R86). -/
def execSym14 (s : State) : Result := .next (s.beginStep.showRow 14)

/-- Row 15 (R86). -/
def execSym15 (s : State) : Result := .next (s.beginStep.showRow 15)

end Sys2Proof.Machine
end

