-- ==== Sys2Proof/Machine/Decoder.lean ====
section
/-! DEFINITION. The decoder unit's operations (42_decoder R150, R151). -/

namespace Sys2Proof.Machine

/-- `DEC.PUT u` (R150). -/
def execDecPut (u : TextUnit) (s : State) : Result :=
  .next (s.beginStep.takeUnit u)

/-- `DEC.END` (R151): a held high nibble is dropped; `DEC.hold` is not written. -/
def execDecEnd (s : State) : Result :=
  .next ((s.beginStep.setPhase .HI).emitDec .endBeat)

end Sys2Proof.Machine
end

