-- ==== Sys2Proof/Machine/Encoder.lean ====
section
/-! DEFINITION. The encoder unit's operations (41_encoder R130, R131). -/

namespace Sys2Proof.Machine

/-- `ENC.PUT b` (R130): the symbol of the high nibble, then the symbol of the low one. -/
def execEncPut (b : Byte) (s : State) : Result :=
  .next ((s.beginStep.emitEnc (.data (n2s Config.ALPHABET (hiNibble b)))).emitEnc
    (.data (n2s Config.ALPHABET (loNibble b))))

/-- `ENC.END` (R131): forwards the end of the message. -/
def execEncEnd (s : State) : Result :=
  .next (s.beginStep.emitEnc .endBeat)

end Sys2Proof.Machine
end

