-- ==== Sys2Proof/Machine/Lookup.lean ====
section
/-! DEFINITION. The two lookups at their taps (40_alphabet_lookup R110, R111; 10_state R31). They write no state of the block:
the value driven stands on the tap input, and the outputs follow from it (`State.n2sSym`, `State.s2nHit`, `State.s2nV`). -/

namespace Sys2Proof.Machine

/-- `N2S v` (R110). -/
def execN2s (v : Nibble) (s : State) : Result := .next (s.beginStep.driveN2s v)

/-- `S2N u` (R111). -/
def execS2n (u : TextUnit) (s : State) : Result := .next (s.beginStep.driveS2n u)

end Sys2Proof.Machine
end

