-- ==== Sys2Proof/Machine/System.lean ====
section
/-! DEFINITION. The one system operation (43_system R180, R181). -/

namespace Sys2Proof.Machine

/-- `RESET` (R180): expects a high nibble, emits nothing, `DEC.hold` not written. The streams that start again from empty are the
environment's (`Env.restart`). -/
def execReset (s : State) : Result :=
  .next (s.beginStep.setPhase .HI)

end Sys2Proof.Machine
end

