-- ==== Sys2Proof/Machine/Fetch.lean ====
section
/-! DEFINITION. Where the next operation comes from. There is no program (10_state R27): the environment presents inputs. -/

namespace Sys2Proof.Machine

/-- The input that the edge looks at, if any, and the state after that (R32, R33). -/
def fetch (s : State) : Option Input × State := (s.presented, s.take)

end Sys2Proof.Machine
end

