-- ==== Sys2Proof/Machine/Step.lean ====
section
/-! DEFINITION. One step: take the input that is presented, decode it, carry it out (30_encoding R84, 10_state R27). -/

namespace Sys2Proof.Machine

/-- One step (00_scope R13). With nothing presented, or an edge with `rst = 0`, the block emits nothing and keeps its registers
(60_exceptions R233, 10_state R32; log 11). -/
def step (s : State) : Host.Outcome State Fault Refusal :=
  match fetch s with
  | (none, s') => .next s'.beginStep
  | (some x, s') =>
    match decode x with
    | .ok i => exec i s'
    | .error _ => .next s'.beginStep

/-- The state in which a word of the opcode table is the input presented next (log 13). A word that is no input of the block
leaves the state as it is. -/
def State.withFetchWord (s : State) (nbits w : Nat) : State :=
  match tableInput nbits w with
  | .ok x => s.offer x
  | .error _ => s

end Sys2Proof.Machine
end

