-- ==== Sys2Proof/Machine/Codec.lean ====
section
/-! DEFINITION. The whole-message functions `encode` and `decode` (41_encoder R132, 42_decoder R152), for every width and every
alphabet, and messages on a stream (10_state R33). -/

namespace Sys2Proof.Machine.Codec

/-- `encode(B)` (R132). -/
def encodeBytes {w : Nat} (A : Alphabet w) : List Byte → List (BitVec w)
  | [] => []
  | b :: rest => [n2s A (hiNibble b), n2s A (loNibble b)] ++ encodeBytes A rest

/-- `rec(T)`: the nibbles of the recognised units, in order (R152). -/
def recNibbles {w : Nat} (A : Alphabet w) : List (BitVec w) → List Nibble
  | [] => []
  | u :: rest =>
    match s2n A u with
    | some v => v :: recNibbles A rest
    | none => recNibbles A rest

/-- `pack`: first of a pair high, second low; an odd last nibble is dropped (R152). -/
def pack : List Nibble → List Byte
  | [] => []
  | [_] => []
  | h :: l :: rest => joinNibbles h l :: pack rest

/-- `decode(T) = pack(rec(T))` (R152), the policy PERMISSIVE of R155. -/
def decodeText {w : Nat} (A : Alphabet w) (T : List (BitVec w)) : List Byte := pack (recNibbles A T)

/-- `count_recognized(T)` (R153). -/
def countRecognized {w : Nat} (A : Alphabet w) (T : List (BitVec w)) : Nat := (recNibbles A T).length

/-- A unit is recognised (00_scope R14). -/
def isRecognised {w : Nat} (A : Alphabet w) (u : BitVec w) : Bool := (s2n A u).isSome

/-- Well-formed encoded text: every unit recognised and even length (30_encoding R82). -/
def wellFormedText {w : Nat} (A : Alphabet w) (T : List (BitVec w)) : Bool :=
  T.all (isRecognised A) && T.length % 2 == 0

/-- Cut a stream at its `END` beats, `under` being the payload of the message under way. -/
def splitMessages {α : Type} (under : List α) : List (Beat α) → List (List α) × List α
  | [] => ([], under)
  | .data p :: rest => splitMessages (under ++ [p]) rest
  | .endBeat :: rest => (under :: (splitMessages [] rest).1, (splitMessages [] rest).2)

/-- The finished messages of a stream, as payloads, and the payload of the unfinished one (R33). -/
def messages {α : Type} (l : List (Beat α)) : List (List α) × List α := splitMessages [] l

/-- A finished message as beats: its payload and then `END` (R33). -/
def messageBeats {α : Type} (payload : List α) : List (Beat α) := payload.map Beat.data ++ [.endBeat]

/-- The stream that holds these finished messages and then this unfinished one (R33). -/
def streamOf {α : Type} (m : List (List α) × List α) : List (Beat α) :=
  m.1.flatMap messageBeats ++ m.2.map Beat.data

/-- What ENC makes of an input stream, message by message (R60, R202). -/
def encodeStream {w : Nat} (A : Alphabet w) (l : List (Beat Byte)) : List (Beat (BitVec w)) :=
  streamOf ((messages l).1.map (encodeBytes A), encodeBytes A (messages l).2)

/-- What DEC makes of an input stream, message by message (R60, R157, R203). -/
def decodeStream {w : Nat} (A : Alphabet w) (l : List (Beat (BitVec w))) : List (Beat Byte) :=
  streamOf ((messages l).1.map (decodeText A), decodeText A (messages l).2)

/-- The nibble DEC holds after the units of an unfinished message (R157): the last recognised one if their number is odd. -/
def heldNibble {w : Nat} (A : Alphabet w) (T : List (BitVec w)) : Option Nibble :=
  if countRecognized A T % 2 = 0 then none else (recNibbles A T).getLast?

end Sys2Proof.Machine.Codec
end

