-- ==== Sys2Proof/Machine/Flags.lean ====
section
/-! DEFINITION. The combinational outputs of the lookup taps (10_state R31). No flag is stored (R28): `hit` is a value of the
moment, computed from the tap input. -/

namespace Sys2Proof.Machine

/-- Output `n2s_sym`: `N2S(n2s_v)` at all times (R31, R110). -/
def State.n2sSym (s : State) : TextUnit := n2s Config.ALPHABET s.ports.n2sV

/-- Output `s2n_hit`: 1 when `s2n_u` is recognised (R31, R111). -/
def State.s2nHit (s : State) : BitVec 1 :=
  match s2n Config.ALPHABET s.ports.s2nU with
  | some _ => 1
  | none => 0

/-- Output `s2n_v`: the nibble on a hit; on a miss unspecified (R111, D17), a free value (log 5). -/
def State.s2nV (s : State) : Nibble :=
  match s2n Config.ALPHABET s.ports.s2nU with
  | some v => v
  | none => Config.s2nMiss s.ports.sample

end Sys2Proof.Machine
end

