-- ==== Sys2Proof/Machine/Run.lean ====
section
/-! DEFINITION. The pseudo-operations of the spec as lists of operations (30_encoding R90), and where each operation takes place
(20_memory R60). -/

namespace Sys2Proof.Machine

/-- The expansion of the pseudo-operation `encode(B)` (R90). -/
def encodeOps (B : List Byte) : List Instr := B.map Instr.encPut ++ [.encEnd]

/-- The expansion of the pseudo-operation `decode(T)` (R90). -/
def decodeOps (T : List TextUnit) : List Instr := T.map Instr.decPut ++ [.decEnd]

/-- Where an operation takes place (20_memory R60, 60_exceptions R231). -/
inductive Place where
  /-- The encoder unit. -/
  | enc
  /-- The decoder unit. -/
  | dec
  /-- `RESET`, which acts on the whole block. -/
  | both
  /-- The lookup taps, the rows of the code table with them. -/
  | taps
  deriving DecidableEq, Repr

/-- Where each operation takes place. -/
def placeOf : Instr → Place
  | .encPut _ => .enc
  | .encEnd => .enc
  | .decPut _ => .dec
  | .decEnd => .dec
  | .reset => .both
  | .n2s _ => .taps
  | .s2n _ => .taps
  | .sym0 => .taps
  | .sym1 => .taps
  | .sym2 => .taps
  | .sym3 => .taps
  | .sym4 => .taps
  | .sym5 => .taps
  | .sym6 => .taps
  | .sym7 => .taps
  | .sym8 => .taps
  | .sym9 => .taps
  | .sym10 => .taps
  | .sym11 => .taps
  | .sym12 => .taps
  | .sym13 => .taps
  | .sym14 => .taps
  | .sym15 => .taps

/-- The operations of the encoder unit (20_memory R60). -/
def isEncOp (i : Instr) : Bool := placeOf i == .enc

/-- The operations of the decoder unit (20_memory R60). -/
def isDecOp (i : Instr) : Bool := placeOf i == .dec

/-- `RESET`. -/
def isResetOp (i : Instr) : Bool := placeOf i == .both

/-- The operations at the lookup taps. -/
def isTapOp (i : Instr) : Bool := placeOf i == .taps

end Sys2Proof.Machine
end

