-- ==== Sys2Proof/Machine/Session.lean ====
section
/-! DEFINITION. The environment, outside the state that the block steps (10_state R34): the streams of the ports and what the consumers
have had (R33; 70_reset R252, R259), the wires between the two units (30_encoding R83, 20_memory R61, 44_properties R204), and the
schedule, which is a list given from outside (R61). -/

namespace Sys2Proof.Machine

/-- The environment's record of the ports (R33, R34). The block reads none of it. -/
structure Env where
  /-- Stream of `enc_in` since the last `RESET` (R33). -/
  encIn : List (Beat Byte)
  /-- Stream of `enc_out` since the last `RESET` (R33). -/
  encOut : List (Beat TextUnit)
  /-- Stream of `dec_in` since the last `RESET` (R33). -/
  decIn : List (Beat TextUnit)
  /-- Stream of `dec_out` since the last `RESET` (R33). -/
  decOut : List (Beat Byte)
  /-- Every beat `enc_out` has emitted, before the last `RESET` too: nothing takes one back (R252, R259; log 14). -/
  encSent : List (Beat TextUnit)
  /-- Every beat `dec_out` has emitted (R252, R259; log 14). -/
  decSent : List (Beat Byte)
  /-- How many beats of `encSent` the wire to `dec_in` has carried (R61, R204; log 12). -/
  encTaken : Nat
  /-- How many beats of `decSent` the wire to `enc_in` has carried (R83; log 12). -/
  decTaken : Nat
  deriving DecidableEq, Repr

/-- Nothing has been transferred or emitted (R251; logs 12 and 14). -/
def Env.initial : Env where
  encIn := []
  encOut := []
  decIn := []
  decOut := []
  encSent := []
  decSent := []
  encTaken := 0
  decTaken := 0

/-- The block in its environment. -/
structure Session where
  /-- The block as `step` knows it. -/
  machine : State
  /-- What the environment has seen of its ports. -/
  env : Env
  deriving DecidableEq, Repr

/-- The start of a session: the block after `RESET`, and nothing transferred yet (R251, R253). -/
def Session.start : Session := { machine := State.reset, env := Env.initial }

/-- Every port's stream starts again from empty (43_system R180). What was emitted stays emitted, and what a wire has still to carry
stays to be carried (R180, 70_reset R252). -/
def Env.restart (e : Env) : Env := { e with encIn := [], encOut := [], decIn := [], decOut := [] }

/-- What an input does to the streams as it is taken: a beat is one more of its port's stream, and `rst = 1` starts all streams again
(R33, R180). -/
def Env.accept (x : Input) (e : Env) : Env :=
  match x with
  | .rst level => if level = 1 then e.restart else e
  | .encIn b => { e with encIn := e.encIn ++ [Beat.ofPins b] }
  | .decIn b => { e with decIn := e.decIn ++ [Beat.ofPins b] }
  | .n2sV _ => e
  | .s2nU _ => e
  | .code _ => e

/-- The beats of one step are appended to the output streams, and the consumers have them for good (R33, R66, R252). -/
def Env.collect (p : Ports) (e : Env) : Env :=
  { e with
    encOut := e.encOut ++ p.encOut
    encSent := e.encSent ++ p.encOut
    decOut := e.decOut ++ p.decOut
    decSent := e.decSent ++ p.decOut }

/-- The wire from `enc_out` to `dec_in` has carried one beat more (R204, log 12). -/
def Env.advanceEncWire (e : Env) : Env := { e with encTaken := e.encTaken + 1 }

/-- The wire from `dec_out` to `enc_in` has carried one beat more (R83, log 12). -/
def Env.advanceDecWire (e : Env) : Env := { e with decTaken := e.decTaken + 1 }

/-- The session once the block has answered the input `x` with the state `t`. -/
def Session.record (x : Input) (t : State) (σ : Session) : Session :=
  { machine := t, env := (σ.env.accept x).collect t.ports }

/-- What a session ends in. -/
abbrev SessionResult := Host.Outcome Session Fault Refusal

/-- The environment puts an input on the pins, before the edge (R31). -/
def Session.drive (x : Input) (σ : Session) : Session := { σ with machine := σ.machine.offer x }

/-- One edge: the block takes one step on what is presented, and the environment records it (R32, R33). -/
def Session.edge (σ : Session) : SessionResult :=
  match step σ.machine with
  | .next t =>
    match σ.machine.presented with
    | some x => .next (σ.record x t)
    | none => .next { σ with machine := t }
  | .fault f => .fault f
  | .refused r => .refused r

/-- The environment presents an input, and the edge looks at it. -/
def Session.present (x : Input) (σ : Session) : SessionResult := (σ.drive x).edge

/-- One thing the environment does (R31, R32, R33, R231; logs 6, 12 and 18). -/
inductive Slot where
  /-- It presents an input to the block at the coming edge. -/
  | offer (x : Input)
  /-- It presents an input, and the edge is yet to come (43_system R180: a beat may stand offered at an edge with `rst = 1`). -/
  | drive (x : Input)
  /-- An edge with whatever stands presented. -/
  | edge
  /-- The wire from `enc_out` to `dec_in` carries one beat (20_memory R61, 44_properties R204). -/
  | encToDec
  /-- The wire from `dec_out` to `enc_in` carries one beat (30_encoding R83). -/
  | decToEnc
  deriving DecidableEq, Repr

/-- The beat that a move presents on `enc_in`, if it presents one there (R33). -/
def Slot.encBeat : Slot → Option (Beat Byte)
  | .offer (.encIn b) => some (Beat.ofPins b)
  | _ => none

/-- The environment does one thing. A wire carries the next beat emitted and not yet carried, by the pins that drive it (R83); with no
such beat nothing happens (R61: only after it was emitted; log 11). -/
def Session.move (x : Slot) (σ : Session) : SessionResult :=
  match x with
  | .offer x => σ.present x
  | .drive x => .next (σ.drive x)
  | .edge => σ.edge
  | .encToDec =>
    match σ.env.encSent[σ.env.encTaken]? with
    | some b => Session.present (.decIn b.toPins) { σ with env := σ.env.advanceEncWire }
    | none => .next σ
  | .decToEnc =>
    match σ.env.decSent[σ.env.decTaken]? with
    | some b => Session.present (.encIn b.toPins) { σ with env := σ.env.advanceDecWire }
    | none => .next σ

/-- The environment does one thing after another, in the order of the schedule (R61), stopping where the block does not answer a next
state. -/
def Session.play : List Slot → Session → SessionResult
  | [], σ => .next σ
  | x :: rest, σ =>
    match σ.move x with
    | .next τ => τ.play rest
    | .fault f => .fault f
    | .refused r => .refused r

/-- The environment presents the pins of an operation (R84). -/
def Session.perform (i : Instr) (σ : Session) : SessionResult := σ.present (encode i)

/-- It presents operations one after the other. -/
def Session.performAll (l : List Instr) (σ : Session) : SessionResult := σ.play (l.map fun i => .offer (encode i))

end Sys2Proof.Machine
end

