-- ==== Sys2Proof/Safety.lean ====
section
/-! DEFINITION. What the spec promises of every run, as predicates on the block in its environment that each step keeps, and what
rest means (60_exceptions R234). No run is unsafe: nothing faults (R220). -/

namespace Sys2Proof.Safety

open Sys2Proof.Machine Sys2Proof.Machine.Codec

/-- The stream of `enc_out` is the encoding, message by message, of the stream of `enc_in` (20_memory R60, 44_properties R202). -/
def EncStreamInv (σ : Session) : Prop := σ.env.encOut = encodeStream Config.ALPHABET σ.env.encIn

/-- The stream of `dec_out` is the decoding, message by message, of the stream of `dec_in`, and DEC holds what R157 says it
holds (20_memory R60, 42_decoder R157, 44_properties R203). -/
def DecStreamInv (σ : Session) : Prop :=
  σ.env.decOut = decodeStream Config.ALPHABET σ.env.decIn ∧
    σ.machine.block.pending = heldNibble Config.ALPHABET (messages σ.env.decIn).2

/-- A wire has carried no beat that was not emitted (20_memory R61; log 12). -/
def WireInv (σ : Session) : Prop :=
  σ.env.encTaken ≤ σ.env.encSent.length ∧ σ.env.decTaken ≤ σ.env.decSent.length

/-- The streams since the last `RESET` are the last part of what the consumers have had (70_reset R252, R259; log 14). -/
def SentInv (σ : Session) : Prop :=
  σ.env.encOut <:+ σ.env.encSent ∧ σ.env.decOut <:+ σ.env.decSent

/-- A run is at rest (R234): nothing is presented, every message is closed by `END`, and `DEC.phase = HI`. -/
def AtRest (σ : Session) : Prop :=
  σ.machine.presented = none ∧ (messages σ.env.encIn).2 = [] ∧ (messages σ.env.decIn).2 = [] ∧
    σ.machine.block.phase = .HI

/-- Two states that no operation can tell apart: the same ports, and the same registers as far as they are readable
(10_state R22, R30). -/
def SameView (s t : State) : Prop := s.ports = t.ports ∧ s.block.pending = t.block.pending

/-- What the environment sees of two sessions is the same: the registers, the record and the taps; the model's counter and the beats
of the last step alone are left out (20_memory R61, 60_exceptions R224). -/
def SameOutside (σ τ : Session) : Prop :=
  σ.machine.block = τ.machine.block ∧ σ.env = τ.env ∧
    σ.machine.ports.n2sV = τ.machine.ports.n2sV ∧ σ.machine.ports.s2nU = τ.machine.ports.s2nU

end Sys2Proof.Safety
end

