-- ==== Sys2Proof/Certificates/Slice0/Obligations.lean ====
section
/-! DEFINITION. The statements for the provers, from the numbered rules of spec/. `A` is any alphabet of any width where the
rule is about the codec alone; the machine's own width is `Config.SYMW`, of which nothing is known but that it is at least 4, and its
own table `Config.ALPHABET`, of which nothing is known but distinctness. Statements about one operation are about `exec` on `State`;
statements about streams are about a `Session`, the block in its environment (10_state R34; log 6). -/

open Sys2Proof Sys2Proof.Machine Sys2Proof.Machine.Codec Sys2Proof.Safety

/-! ## The lookups -/

/-- R114 to R117: at most one nibble for a unit; every nibble round-trips; a hit names the entry and a miss differs from all 16;
`N2S` is injective. -/
def Obligations.LookupsAgreeOnTheAlphabet : Prop :=
  ∀ (w : Nat) (A : Alphabet w),
    (∀ (u : BitVec w) (i j : Nibble), A.symbol i = u → A.symbol j = u → i = j) ∧
    (∀ v : Nibble, s2n A (n2s A v) = some v) ∧
    (∀ (u : BitVec w) (v : Nibble), s2n A u = some v → n2s A v = u) ∧
    (∀ u : BitVec w, s2n A u = none ↔ ∀ v : Nibble, u ≠ n2s A v) ∧
    (∀ i j : Nibble, n2s A i = n2s A j → i = j)

/-- R113: a search of the table in any order that visits all 16 entries, and any other method that finds a matching entry
exactly when there is one, answers what `S2N` answers. -/
def Obligations.SearchMethodUnobservable : Prop :=
  ∀ (w : Nat) (A : Alphabet w),
    (∀ order : List Nibble, (∀ v : Nibble, v ∈ order) →
      ∀ u : BitVec w, order.find? (fun v => A.symbol v == u) = s2n A u) ∧
    (∀ method : BitVec w → Option Nibble,
      (∀ u v, method u = some v → A.symbol v = u) →
      (∀ u, method u = none → ∀ v, A.symbol v ≠ u) →
      ∀ u, method u = s2n A u)

/-- From R111, corner case: exactly 16 of the `2^SYMW` units give `hit = 1`. -/
def Obligations.ExactlySixteenUnitsHit : Prop :=
  ∀ (w : Nat) (A : Alphabet w), Set.ncard {u : BitVec w | isRecognised A u = true} = 16

/-- R110: `N2S v` completes, puts `ALPHABET[v]` on `n2s_sym`, and its encoding is the 4 bits on the tap. -/
def Obligations.N2sPutsTheSymbolOnTheTap : Prop :=
  ∀ (v : Nibble) (s : State),
    decode (.n2sV v) = .ok (.n2s v) ∧
    ∃ t, exec (.n2s v) s = .next t ∧ t.n2sSym = Config.ALPHABET.symbol v ∧ t.block = s.block

/-- From R111: `S2N u` completes; `s2n_hit` is 1 exactly when some entry equals `u`, and then `s2n_v` is its index. On a miss
`s2n_v` is a free value and nothing is said of it. -/
def Obligations.S2nPutsTheNibbleOnTheTap : Prop :=
  ∀ (u : TextUnit) (s : State),
    decode (.s2nU u) = .ok (.s2n u) ∧
    ∃ t, exec (.s2n u) s = .next t ∧ t.block = s.block ∧
      (∀ v : Nibble, Config.ALPHABET.symbol v = u → t.s2nHit = 1 ∧ t.s2nV = v) ∧
      ((∀ v : Nibble, Config.ALPHABET.symbol v ≠ u) → t.s2nHit = 0)

/-- From R86 and the model's reading of a code row as a lookup in both directions (log 9): each of the sixteen rows completes and
shows its nibble and its symbol at the taps. -/
def Obligations.CodeTableRowsShowBothDirections : Prop :=
  ∀ (s : State) (i : Instr) (v : Nibble),
    (i, v) ∈ [(Instr.sym0, (0 : Nibble)), (.sym1, 1), (.sym2, 2), (.sym3, 3), (.sym4, 4), (.sym5, 5), (.sym6, 6), (.sym7, 7),
      (.sym8, 8), (.sym9, 9), (.sym10, 10), (.sym11, 11), (.sym12, 12), (.sym13, 13), (.sym14, 14), (.sym15, 15)] →
    decode (.code v) = .ok i ∧
    ∃ t, exec i s = .next t ∧ t.n2sSym = Config.ALPHABET.symbol v ∧
      t.ports.s2nU = Config.ALPHABET.symbol v ∧ t.s2nHit = 1 ∧ t.s2nV = v ∧ t.block = s.block

/-! ## The encoder and the decoder -/

/-- R130: `ENC.PUT b` completes and emits the symbol of `b / 16`, then the symbol of `b mod 16`, and nothing else; its beat is
`0 bbbbbbbb`. -/
def Obligations.EncPutEmitsHighThenLow : Prop :=
  ∀ (b : Byte) (s : State),
    decode (.encIn (PinBeat.ofWord (BitVec.ofNat 9 b.toNat))) = .ok (.encPut b) ∧
    ∃ t, exec (.encPut b) s = .next t ∧ t.block = s.block ∧ t.ports.decOut = [] ∧
      t.ports.encOut =
        [.data (Config.ALPHABET.symbol (BitVec.ofNat 4 (b.toNat / 16))),
         .data (Config.ALPHABET.symbol (BitVec.ofNat 4 (b.toNat % 16)))]

/-- R131: `ENC.END` completes and emits `END` and no symbol, whatever the payload bits of its beat; the pins of the `END` emitted have
payload 0. -/
def Obligations.EncEndForwardsTheEnd : Prop :=
  (∀ x : BitVec 9, 2 ^ 8 ≤ x.toNat → decode (.encIn (PinBeat.ofWord x)) = .ok .encEnd) ∧
  (Beat.endBeat : Beat TextUnit).toPins.toNat = 2 ^ Config.SYMW ∧
  ∀ s : State, ∃ t, exec .encEnd s = .next t ∧ t.block = s.block ∧ t.ports.encOut = [.endBeat] ∧ t.ports.decOut = []

/-- R150: `DEC.PUT u` completes for any `u` in any state: an unrecognised unit changes no register and emits nothing; a recognised one
is held in phase `HI`, and joined to the held nibble in phase `LO`. -/
def Obligations.DecPutSkipsHoldsOrEmits : Prop :=
  ∀ (u : TextUnit) (s : State),
    decode (.decIn (PinBeat.ofWord (BitVec.ofNat (Config.SYMW + 1) u.toNat))) = .ok (.decPut u) ∧
    ∃ t, exec (.decPut u) s = .next t ∧ t.ports.encOut = [] ∧
      ((∀ v : Nibble, Config.ALPHABET.symbol v ≠ u) → t.block = s.block ∧ t.ports.decOut = []) ∧
      (∀ v : Nibble, Config.ALPHABET.symbol v = u → s.block.phase = .HI →
        t.block.hold = v ∧ t.block.phase = .LO ∧ t.ports.decOut = []) ∧
      (∀ v : Nibble, Config.ALPHABET.symbol v = u → s.block.phase = .LO →
        t.block.hold = s.block.hold ∧ t.block.phase = .HI ∧
        t.ports.decOut = [.data (BitVec.ofNat 8 (s.block.hold.toNat * 16 + v.toNat))])

/-- R151: `DEC.END` completes in either phase, drops a held nibble, does not write `DEC.hold`, and emits `END` alone, with payload 0 on
the pins. -/
def Obligations.DecEndDropsTheOddNibble : Prop :=
  (∀ x : BitVec (Config.SYMW + 1), 2 ^ Config.SYMW ≤ x.toNat → decode (.decIn (PinBeat.ofWord x)) = .ok .decEnd) ∧
  (Beat.endBeat : Beat Byte).toPins.toNat = 0x100 ∧
  ∀ s : State, ∃ t, exec .decEnd s = .next t ∧ t.block.phase = .HI ∧ t.block.hold = s.block.hold ∧
    t.ports.decOut = [.endBeat] ∧ t.ports.encOut = []

/-- R180: `RESET` completes: `DEC.phase = HI`, `DEC.hold` not written, nothing emitted; every stream starts again from empty; a beat offered at
the edge stays offered; done at several edges it is as done at one. -/
def Obligations.ResetStartsAgain : Prop :=
  decode (.rst 1) = .ok .reset ∧
  (∀ s : State, ∃ t, exec .reset s = .next t ∧ t.block.phase = .HI ∧ t.block.hold = s.block.hold ∧
    t.ports.encOut = [] ∧ t.ports.decOut = [] ∧ t.ports.offered = s.ports.offered ∧ t.ports.rst = s.ports.rst ∧
    ∃ t', exec .reset t = .next t' ∧ t'.block = t.block) ∧
  ∀ σ : Session, ∃ τ, σ.perform .reset = .next τ ∧ τ.machine.block.phase = .HI ∧
    τ.machine.block.hold = σ.machine.block.hold ∧ τ.machine.ports.offered = σ.machine.ports.offered ∧
    τ.env.encIn = [] ∧ τ.env.encOut = [] ∧ τ.env.decIn = [] ∧ τ.env.decOut = [] ∧
    ∃ τ', τ.perform .reset = .next τ' ∧ SameOutside τ τ'

/-- R156: the decoder's transition table, over the registers seen as one pending nibble. -/
def Obligations.DecoderTransitionTable : Prop :=
  ∀ (s : State) (u : TextUnit),
    (∃ t, exec (.decPut u) s = .next t ∧
      (s.block.pending = none → s2n Config.ALPHABET u = none → t.block.pending = none ∧ t.ports.decOut = []) ∧
      (∀ v, s.block.pending = none → s2n Config.ALPHABET u = some v → t.block.pending = some v ∧ t.ports.decOut = []) ∧
      (∀ h, s.block.pending = some h → s2n Config.ALPHABET u = none → t.block.pending = some h ∧ t.ports.decOut = []) ∧
      (∀ h v, s.block.pending = some h → s2n Config.ALPHABET u = some v →
        t.block.pending = none ∧ t.ports.decOut = [.data (BitVec.ofNat 8 (h.toNat * 16 + v.toNat))])) ∧
    (∃ t, exec .decEnd s = .next t ∧ t.block.pending = none ∧ t.ports.decOut = [.endBeat]) ∧
    (∃ t, exec .reset s = .next t ∧ t.block.pending = none ∧ t.ports.decOut = [])

/-! ## Frames -/

/-- Frame of `ENC.PUT` and `ENC.END` (R23, R61): the block's registers, what is presented (an input, a level of `rst`) and the taps (log 19) are untouched and
nothing is emitted on `dec_out`; in a session the decoder's streams and record and the wires' places (log 12) are untouched, `enc_in` gains the
operation's one beat, and `enc_out` gains what it emits, in the stream and in the record alike (log 14). -/
def Obligations.EncOpsFrame : Prop :=
  ∀ i : Instr, isEncOp i = true →
    (∀ s t : State, exec i s = .next t →
      t.block = s.block ∧ t.ports.offered = s.ports.offered ∧ t.ports.rst = s.ports.rst ∧ t.ports.decOut = [] ∧
      t.ports.n2sV = s.ports.n2sV ∧ t.ports.s2nU = s.ports.s2nU) ∧
    ∀ σ τ : Session, σ.perform i = .next τ →
      τ.machine.block = σ.machine.block ∧
      τ.env.decIn = σ.env.decIn ∧ τ.env.decOut = σ.env.decOut ∧ τ.env.decSent = σ.env.decSent ∧
      τ.env.encTaken = σ.env.encTaken ∧ τ.env.decTaken = σ.env.decTaken ∧
      (∃ b, τ.env.encIn = σ.env.encIn ++ [b]) ∧
      ∃ e, τ.env.encOut = σ.env.encOut ++ e ∧ τ.env.encSent = σ.env.encSent ++ e

/-- Frame of `DEC.PUT` and `DEC.END` (R21, R22, R61): what is presented and the taps (log 19) are untouched, nothing is emitted on `enc_out` and at
most one beat on `dec_out`; `DEC.hold` changes only where a recognised unit comes in phase `HI`, and no register by an unrecognised one; in
a session the encoder's streams and record and the wires' places (log 12) are untouched, `dec_in` gains the operation's one beat, and
`dec_out` gains what it emits, in the stream and in the record alike (log 14). -/
def Obligations.DecOpsFrame : Prop :=
  ∀ i : Instr, isDecOp i = true →
    (∀ s t : State, exec i s = .next t →
      t.ports.offered = s.ports.offered ∧ t.ports.rst = s.ports.rst ∧ t.ports.encOut = [] ∧
      t.ports.n2sV = s.ports.n2sV ∧ t.ports.s2nU = s.ports.s2nU ∧ t.ports.decOut.length ≤ 1 ∧
      (t.block.hold ≠ s.block.hold →
        s.block.phase = .HI ∧ ∃ v, i = .decPut (Config.ALPHABET.symbol v) ∧ t.block.hold = v) ∧
      (∀ u, i = .decPut u → (∀ v : Nibble, Config.ALPHABET.symbol v ≠ u) → t.block = s.block)) ∧
    ∀ σ τ : Session, σ.perform i = .next τ →
      τ.env.encIn = σ.env.encIn ∧ τ.env.encOut = σ.env.encOut ∧ τ.env.encSent = σ.env.encSent ∧
      τ.env.encTaken = σ.env.encTaken ∧ τ.env.decTaken = σ.env.decTaken ∧
      (∃ b, τ.env.decIn = σ.env.decIn ++ [b]) ∧
      ∃ e, τ.env.decOut = σ.env.decOut ++ e ∧ τ.env.decSent = σ.env.decSent ++ e

/-- Frame of the lookups and of the code rows, which the model runs at the taps (R57, R110, R111; log 9): no register and nothing
presented changes, nothing is emitted, and in a session no stream, record or wire's place (logs 12, 14) changes; `N2S` leaves the other
tap's input alone, and `S2N` its own. -/
def Obligations.TapOpsFrame : Prop :=
  ∀ i : Instr, isTapOp i = true →
    (∀ s t : State, exec i s = .next t →
      t.block = s.block ∧ t.ports.offered = s.ports.offered ∧ t.ports.rst = s.ports.rst ∧
      t.ports.encOut = [] ∧ t.ports.decOut = [] ∧
      (∀ v, i = .n2s v → t.ports.s2nU = s.ports.s2nU) ∧
      (∀ u, i = .s2n u → t.ports.n2sV = s.ports.n2sV)) ∧
    ∀ σ τ : Session, σ.perform i = .next τ → τ.env = σ.env

/-- Frame of `RESET` (R252; the taps: logs 15, 19): `DEC.hold`, what is presented and the taps are untouched, and nothing is emitted; in a
session a beat offered at the edge stays offered (R180), the environment's record, but for the four streams, which start again (R180), is
untouched (log 14), and a beat that a wire has still to carry is carried after `RESET` as it would have been before (log 12). -/
def Obligations.ResetFrame : Prop :=
  (∀ s t : State, exec .reset s = .next t →
    t.block.hold = s.block.hold ∧ t.ports.offered = s.ports.offered ∧ t.ports.rst = s.ports.rst ∧
    t.ports.encOut = [] ∧ t.ports.decOut = [] ∧ t.ports.n2sV = s.ports.n2sV ∧ t.ports.s2nU = s.ports.s2nU) ∧
  ∀ σ τ : Session, σ.perform .reset = .next τ →
    τ.machine.ports.offered = σ.machine.ports.offered ∧
    τ.env = { σ.env with encIn := [], encOut := [], decIn := [], decOut := [] } ∧
    (∀ b, σ.env.encSent[σ.env.encTaken]? = some b →
      τ.move .encToDec = Session.present (.decIn b.toPins) { τ with env := τ.env.advanceEncWire }) ∧
    (∀ b, σ.env.decSent[σ.env.decTaken]? = some b →
      τ.move .decToEnc = Session.present (.encIn b.toPins) { τ with env := τ.env.advanceDecWire })

/-! ## Encoding -/

/-- Decoding the pin word of any operation, with any operand, gives it back, and the word fits its port. -/
def Obligations.DecodeOfEncodeIsTheInstruction : Prop :=
  ∀ i : Instr, decode (encode i) = .ok i ∧ (encode i).port.Fits (encode i).toNat

/-- R84: every input selects exactly the operation the map gives it; every beat selects one. -/
def Obligations.EveryInputSelectsItsOperation : Prop :=
  (∀ beat : BitVec 9, decode (.encIn (PinBeat.ofWord beat)) =
    .ok (if beat.toNat < 2 ^ 8 then .encPut (BitVec.ofNat 8 beat.toNat) else .encEnd)) ∧
  (∀ beat : BitVec (Config.SYMW + 1), decode (.decIn (PinBeat.ofWord beat)) =
    .ok (if beat.toNat < 2 ^ Config.SYMW then .decPut (BitVec.ofNat Config.SYMW beat.toNat) else .decEnd)) ∧
  decode (.rst 1) = .ok .reset ∧
  (∀ v, decode (.n2sV v) = .ok (.n2s v)) ∧
  (∀ u, decode (.s2nU u) = .ok (.s2n u))

/-- R83: the word of `DATA(p)` has `end = 0` and payload `p`; of `END`, `end = 1` and payload 0; a word with `end = 1` is `END` whatever
its payload; a beat's word has its fields; and what one port drives the other reads back, so the units can be wired with no adapter. -/
def Obligations.BeatWordsAreTheFormat : Prop :=
  ∀ n : Nat,
    (∀ p : BitVec n, (Beat.data p).toPins.toWord.toNat = p.toNat) ∧
    (Beat.endBeat : Beat (BitVec n)).toPins.toWord.toNat = 2 ^ n ∧
    (∀ x : BitVec (n + 1), 2 ^ n ≤ x.toNat → Beat.ofPins (PinBeat.ofWord x) = .endBeat) ∧
    (∀ x : BitVec (n + 1), x.toNat < 2 ^ n → Beat.ofPins (PinBeat.ofWord x) = .data (BitVec.ofNat n x.toNat)) ∧
    (∀ b : PinBeat n, PinBeat.ofWord b.toWord = b) ∧
    (∀ b : Beat (BitVec n), Beat.ofPins b.toPins = b)

/-- Words of 95_test_vectors P1 to P6 and of the opcode table decode to what they stand for. That the table word 1 of 8 bits is `RESET` and
not `SYM1` is the model's choice; the words are those of the table, laid out for units of 21 bits (log 10). -/
def Obligations.WordsOfTheSpecDecode : Prop :=
  decodeTableWord 16 0x0AB = some (.encPut 0xAB) ∧ decodeTableWord 16 0x1FF = some .encEnd ∧
  decodeTableWord 24 0x01F60A = some (.decPut 0x1F60A) ∧ decodeTableWord 24 0x21F600 = some .decEnd ∧
  decodeTableWord 8 1 = some .reset ∧ decodeTableWord 8 13 = some .sym13 ∧
  decode (.n2sV 10) = .ok (.n2s 10) ∧ decode (.s2nU 0x1F60B) = .ok (.s2n 0x1F60B)

/-! ## The step -/

/-- R220: every operation is total on every operand in every state, and a step has one outcome, the next state; so has every schedule
of the environment. -/
def Obligations.EveryStepAnswersANextState : Prop :=
  (∀ (i : Instr) (s : State), ∃ t, exec i s = .next t) ∧ (∀ s : State, ∃ t, step s = .next t) ∧
    ∀ (l : List Slot) (σ : Session), ∃ τ, σ.play l = .next τ

/-- A step runs the instruction decoded from the input that is presented, `rst` before all others (R32); with none, or an edge with
`rst = 0`, it emits nothing and keeps the registers (R84, R233; log 11). Performing an operation in a session is `exec` of it and the record
of what it took and emitted; so is an edge with that operation's input presented; a wire's move is the operation of the next beat it has
to carry (logs 6, 12, 18). -/
def Obligations.StepRunsTheDecodedInstruction : Prop :=
  (∀ (s : State) (x : Input), s.presented = some x →
    (∀ i, decode x = .ok i → step s = exec i s.take) ∧
    (∀ r, decode x = .error r → step s = .next s.take.beginStep)) ∧
  (∀ (s : State) (level : BitVec 1), s.ports.rst = some level → s.presented = some (.rst level)) ∧
  (∀ s : State, s.ports.rst = none → s.presented = s.ports.offered) ∧
  (∀ s : State, s.presented = none → step s = .next s.take.beginStep) ∧
  (∀ (i : Instr) (σ : Session), ∃ t, exec i (σ.machine.offer (encode i)).take = .next t ∧
    σ.perform i = .next (σ.record (encode i) t)) ∧
  (∀ (σ : Session) (x : Input) (i : Instr), σ.machine.presented = some x → decode x = .ok i →
    ∃ t, exec i σ.machine.take = .next t ∧ σ.move .edge = .next (σ.record x t)) ∧
  ∀ σ : Session,
    (∀ u, σ.env.encSent[σ.env.encTaken]? = some (.data u) →
      σ.move .encToDec = Session.perform (.decPut u) { σ with env := σ.env.advanceEncWire }) ∧
    (σ.env.encSent[σ.env.encTaken]? = some .endBeat →
      σ.move .encToDec = Session.perform .decEnd { σ with env := σ.env.advanceEncWire }) ∧
    (σ.env.encSent[σ.env.encTaken]? = none → σ.move .encToDec = .next σ) ∧
    (∀ b, σ.env.decSent[σ.env.decTaken]? = some (.data b) →
      σ.move .decToEnc = Session.perform (.encPut b) { σ with env := σ.env.advanceDecWire }) ∧
    (σ.env.decSent[σ.env.decTaken]? = some .endBeat →
      σ.move .decToEnc = Session.perform .encEnd { σ with env := σ.env.advanceDecWire }) ∧
    (σ.env.decSent[σ.env.decTaken]? = none → σ.move .decToEnc = .next σ)

/-- R33: a beat transferred on an input port is appended to that port's stream, and the beats the step emits to the output streams, in
order; the block's next state and emitted beats are those of the step. -/
def Obligations.BeatsAreAppendedToTheStreams : Prop :=
  ∀ σ : Session,
    (∀ b : PinBeat 8, ∃ t τ, step (σ.machine.offer (.encIn b)) = .next t ∧ σ.present (.encIn b) = .next τ ∧ τ.machine = t ∧
      τ.env.encIn = σ.env.encIn ++ [Beat.ofPins b] ∧ τ.env.encOut = σ.env.encOut ++ t.ports.encOut ∧
      τ.env.decIn = σ.env.decIn ∧ τ.env.decOut = σ.env.decOut) ∧
    (∀ b : PinBeat Config.SYMW, ∃ t τ, step (σ.machine.offer (.decIn b)) = .next t ∧ σ.present (.decIn b) = .next τ ∧
      τ.machine = t ∧ τ.env.decIn = σ.env.decIn ++ [Beat.ofPins b] ∧ τ.env.decOut = σ.env.decOut ++ t.ports.decOut ∧
      τ.env.encIn = σ.env.encIn ∧ τ.env.encOut = σ.env.encOut)

/-- From R34 and R60: what an operation does to the registers and what it emits depend on its operand and the registers alone, on no stream,
schedule or level of a pin; what it emits on `enc_out` depends on its operand alone. -/
def Obligations.AnOperationReadsOnlyTheRegisters : Prop :=
  ∀ (i : Instr) (s s' : State), ∃ t t', exec i s = .next t ∧ exec i s' = .next t' ∧
    t.ports.encOut = t'.ports.encOut ∧
    (s.block = s'.block → t.block = t'.block ∧ t.ports.decOut = t'.ports.decOut)

/-- R224 (a), R180: a beat `x` is offered on an input port, and there are one or more edges with `rst = 1`. `RESET` is done; the beat is not
transferred at any of them: nothing is emitted, no consumer and no wire (logs 12, 14) has had a beat more, and the streams are empty; and it
stays offered. At the next edge it is transferred, once: it is the whole stream of its port, and, whatever the registers were before, what is
emitted is what its operation emits as the first after `RESET`. That the environment keeps what it offers is its own affair (log 18). -/
def Obligations.ResetLeavesTheOfferedBeat : Prop :=
  ∀ (σ : Session) (x : Input) (n : Nat), (∃ b, x = .encIn b) ∨ (∃ b, x = .decIn b) →
    ∃ τ, σ.play (.drive x :: List.replicate (n + 1) (.offer (.rst 1))) = .next τ ∧
      τ.machine.block.phase = .HI ∧ τ.machine.block.hold = σ.machine.block.hold ∧
      τ.machine.ports.encOut = [] ∧ τ.machine.ports.decOut = [] ∧
      τ.env = { σ.env with encIn := [], encOut := [], decIn := [], decOut := [] } ∧
      τ.machine.ports.offered = some x ∧
      ∃ ρ, τ.move .edge = .next ρ ∧ ρ.machine.presented = none ∧
        (∀ b, x = .encIn b → ρ.env.encIn = [Beat.ofPins b] ∧ ρ.env.decIn = []) ∧
        (∀ b, x = .decIn b → ρ.env.decIn = [Beat.ofPins b] ∧ ρ.env.encIn = []) ∧
        EncStreamInv ρ ∧ DecStreamInv ρ

/-! ## Invariants -/

/-- What the state after reset meets: `DEC.phase = HI`, and, with nothing transferred yet, every invariant below. `DEC.hold` is not spoken
of (log 3); the environment's fields are the model's (logs 12, 13, 14). -/
def Obligations.ResetStateMeetsTheInvariants : Prop :=
  State.reset.block.phase = .HI ∧ State.reset.block.pending = none ∧ Session.start.machine = State.reset ∧
    EncStreamInv Session.start ∧ DecStreamInv Session.start ∧ WireInv Session.start ∧ SentInv Session.start ∧
    AtRest Session.start

/-- `RESET` establishes the invariants of the streams and of the records (log 14) from every session, the free registers of power-on
included (R250, R251, R253), and keeps that of the wires (log 12). -/
def Obligations.ResetEstablishesTheInvariants : Prop :=
  ∀ σ : Session, ∃ τ, σ.perform .reset = .next τ ∧ EncStreamInv τ ∧ DecStreamInv τ ∧ SentInv τ ∧ (WireInv σ → WireInv τ)

/-- R60 for ENC: every step, whatever input is presented, keeps the stream of `enc_out` the encoding of the stream of `enc_in`; so does
every schedule. -/
def Obligations.StepKeepsTheEncoderStreams : Prop :=
  (∀ (x : Input) (σ : Session) (t : State), EncStreamInv σ → σ.machine.presented = some x → step σ.machine = .next t →
    EncStreamInv (σ.record x t)) ∧
  ∀ (l : List Slot) (σ τ : Session), EncStreamInv σ → σ.play l = .next τ → EncStreamInv τ

/-- R60 and R157 for DEC: every step, whatever input is presented, keeps the stream of `dec_out` the decoding of the stream of `dec_in`, and
the registers what R157 says; so does every schedule. -/
def Obligations.StepKeepsTheDecoderStreams : Prop :=
  (∀ (x : Input) (σ : Session) (t : State), DecStreamInv σ → σ.machine.presented = some x → step σ.machine = .next t →
    DecStreamInv (σ.record x t)) ∧
  ∀ (l : List Slot) (σ τ : Session), DecStreamInv σ → σ.play l = .next τ → DecStreamInv τ

/-- R61: DEC takes from the wire only what ENC has emitted, and the other way round; the counts of carried beats are the model's (log 12). -/
def Obligations.StepKeepsTheWiresBehind : Prop :=
  ∀ (x : Slot) (σ τ : Session), WireInv σ → σ.move x = .next τ → WireInv τ

/-- R66, R252: a beat once emitted is not taken back or changed: the consumers' records only grow, and each stream stays the last part
of its record (the records: log 14). -/
def Obligations.StepNeverTakesBackABeat : Prop :=
  ∀ (x : Slot) (σ τ : Session), SentInv σ → σ.move x = .next τ →
    SentInv τ ∧ σ.env.encSent <+: τ.env.encSent ∧ σ.env.decSent <+: τ.env.decSent

/-- R234: in a state that meets the decoder's invariant with its text closed, the decoder is back at the high nibble and its own
message on `dec_out` is closed too. -/
def Obligations.ClosedTextLeavesNothingBehind : Prop :=
  ∀ σ : Session, DecStreamInv σ → (messages σ.env.decIn).2 = [] →
    σ.machine.block.phase = .HI ∧ (messages σ.env.decOut).2 = [] ∧
    (messages σ.env.decOut).1 = (messages σ.env.decIn).1.map (decodeText Config.ALPHABET)

/-! ## The whole-message functions -/

/-- R190: splitting and joining, as arithmetic and as fields; the split is a bijection. -/
def Obligations.SplitAndJoinAreInverse : Prop :=
  (∀ b : Byte, (hiNibble b).toNat = b.toNat / 16 ∧ (loNibble b).toNat = b.toNat % 16 ∧
    joinNibbles (hiNibble b) (loNibble b) = b) ∧
  (∀ h l : Nibble, (joinNibbles h l).toNat = h.toNat * 16 + l.toNat ∧
    hiNibble (joinNibbles h l) = h ∧ loNibble (joinNibbles h l) = l) ∧
  Function.Bijective (fun b : Byte => (hiNibble b, loNibble b))

/-- R132, R191: `encode(B)` has `2 * N` symbols, at `2*i` that of the high nibble of byte `i` and at `2*i + 1` that of the low one. -/
def Obligations.EncodePositions : Prop :=
  ∀ (w : Nat) (A : Alphabet w) (B : List Byte),
    (encodeBytes A B).length = 2 * B.length ∧
    ∀ (i : Nat) (b : Byte), B[i]? = some b →
      (encodeBytes A B)[2 * i]? = some (A.symbol (BitVec.ofNat 4 (b.toNat / 16))) ∧
      (encodeBytes A B)[2 * i + 1]? = some (A.symbol (BitVec.ofNat 4 (b.toNat % 16)))

/-- R192: the length laws of `decode` and `pack`. -/
def Obligations.DecodeLength : Prop :=
  ∀ (w : Nat) (A : Alphabet w),
    (∀ T : List (BitVec w), (decodeText A T).length = countRecognized A T / 2 ∧ (decodeText A T).length ≤ T.length / 2) ∧
    (∀ l : List Nibble, (pack l).length = l.length / 2)

/-- R193: round-trip identity. -/
def Obligations.DecodeOfEncodeIsTheBuffer : Prop :=
  ∀ (w : Nat) (A : Alphabet w) (B : List Byte), decodeText A (encodeBytes A B) = B

/-- R194: every symbol the encoder emits is recognised with its nibble, and the text is well formed. -/
def Obligations.EncodedTextIsWellFormed : Prop :=
  ∀ (w : Nat) (A : Alphabet w) (B : List Byte),
    recNibbles A (encodeBytes A B) = B.flatMap (fun b => [hiNibble b, loNibble b]) ∧
    countRecognized A (encodeBytes A B) = 2 * B.length ∧
    wellFormedText A (encodeBytes A B) = true

/-- R195: coverage at byte level; 256 ordered pairs, 256 different bytes. -/
def Obligations.EverySymbolPairIsItsByte : Prop :=
  ∀ (w : Nat) (A : Alphabet w) (h l : Nibble),
    decodeText A [A.symbol h, A.symbol l] = [BitVec.ofNat 8 (h.toNat * 16 + l.toNat)] ∧
    ∀ h' l' : Nibble, decodeText A [A.symbol h, A.symbol l] = decodeText A [A.symbol h', A.symbol l'] → h = h' ∧ l = l'

/-- R196: for a well-formed text `encode` undoes `decode`; for any text it gives the recognised units, less the last if their number is
odd; `decode` is onto and not one-to-one, `encode` one-to-one and not onto. -/
def Obligations.EncodeOfDecode : Prop :=
  ∀ (w : Nat) (A : Alphabet w),
    (∀ T : List (BitVec w), wellFormedText A T = true → encodeBytes A (decodeText A T) = T) ∧
    (∀ T : List (BitVec w), encodeBytes A (decodeText A T) =
      (T.filter (isRecognised A)).take (2 * (countRecognized A T / 2))) ∧
    Function.Surjective (decodeText A) ∧ ¬ Function.Injective (decodeText A) ∧
    Function.Injective (encodeBytes A) ∧ ¬ Function.Surjective (encodeBytes A)

/-- R197: `decode(T)` depends on `rec(T)` alone; unrecognised units inserted at any places change nothing. -/
def Obligations.UnrecognisedUnitsAreIgnored : Prop :=
  ∀ (w : Nat) (A : Alphabet w),
    (∀ T T' : List (BitVec w), recNibbles A T = recNibbles A T' → decodeText A T = decodeText A T') ∧
    (∀ T T' : List (BitVec w), T'.filter (isRecognised A) = T.filter (isRecognised A) → decodeText A T' = decodeText A T) ∧
    (∀ (B : List Byte) (T' : List (BitVec w)), T'.filter (isRecognised A) = encodeBytes A B → decodeText A T' = B)

/-- R198: an odd last nibble is dropped, not padded. -/
def Obligations.OddTailIsDropped : Prop :=
  ∀ (w : Nat) (A : Alphabet w) (T : List (BitVec w)) (k : Nat), countRecognized A T = 2 * k + 1 →
    (decodeText A T).length = k ∧
    ∀ (T1 T2 : List (BitVec w)) (u : BitVec w), T = T1 ++ u :: T2 → isRecognised A u = true →
      (∀ x ∈ T2, isRecognised A x = false) → decodeText A T = decodeText A (T1 ++ T2)

/-- R199: empty input gives empty output, and so does a text with at most one recognised unit. -/
def Obligations.EmptyInputGivesEmptyOutput : Prop :=
  ∀ (w : Nat) (A : Alphabet w),
    encodeBytes A [] = [] ∧ decodeText A [] = [] ∧
    ∀ T : List (BitVec w), countRecognized A T ≤ 1 → decodeText A T = []

/-- R200: concatenation; it fails for `decode` after an odd first part. -/
def Obligations.Concatenation : Prop :=
  ∀ (w : Nat) (A : Alphabet w),
    (∀ B1 B2 : List Byte, encodeBytes A (B1 ++ B2) = encodeBytes A B1 ++ encodeBytes A B2) ∧
    (∀ T1 T2 : List (BitVec w), recNibbles A (T1 ++ T2) = recNibbles A T1 ++ recNibbles A T2) ∧
    (∀ T1 T2 : List (BitVec w), countRecognized A T1 % 2 = 0 →
      decodeText A (T1 ++ T2) = decodeText A T1 ++ decodeText A T2) ∧
    (∃ T1 T2 : List (BitVec w), countRecognized A T1 % 2 = 1 ∧
      decodeText A (T1 ++ T2) ≠ decodeText A T1 ++ decodeText A T2) ∧
    (∀ B1 B2 : List Byte, decodeText A (encodeBytes A B1 ++ encodeBytes A B2) = B1 ++ B2)

/-- R201: what is emitted of an unfinished message is the beginning of what the finished one contains. -/
def Obligations.UnfinishedOutputIsABeginning : Prop :=
  ∀ (w : Nat) (A : Alphabet w),
    (∀ B1 B2 : List Byte, encodeBytes A B1 <+: encodeBytes A (B1 ++ B2)) ∧
    (∀ T1 T2 : List (BitVec w), decodeText A T1 <+: decodeText A (T1 ++ T2))

/-- R91: text made with one table reads back with another exactly when the two tables are equal, index by index. -/
def Obligations.SameTableIsNeededAndEnough : Prop :=
  ∀ (w : Nat) (A A' : Alphabet w),
    (∀ B : List Byte, decodeText A (encodeBytes A' B) = B) ↔ ∀ v : Nibble, A.symbol v = A'.symbol v

/-- R25 (a), R7: a table is accepted exactly when `SYMW` is at least 4 and its entries are distinct, and then it is the block's table;
otherwise it is refused by name; and there is no alphabet of a smaller width. -/
def Obligations.OnlyDistinctTablesAreConfigurations : Prop :=
  (∀ (w : Nat) (t : Vector (BitVec w) 16),
    (4 ≤ w → TableDistinct t → ∃ A, Alphabet.ofTable w t = .ok A ∧ ∀ v : Nibble, A.symbol v = t[v.toNat]) ∧
    (4 ≤ w → ∀ i j : Nibble, i ≠ j → t[i.toNat] = t[j.toNat] → Alphabet.ofTable w t = .error .repeatedEntry) ∧
    (w < 4 → Alphabet.ofTable w t = .error .symwTooSmall)) ∧
  ∀ w : Nat, Nonempty (Alphabet w) → 4 ≤ w

/-- R33: a stream is its finished messages and its unfinished one, and nothing else. -/
def Obligations.StreamIsItsMessages : Prop :=
  (∀ l : List (Beat Byte), streamOf (messages l) = l) ∧ (∀ l : List (Beat TextUnit), streamOf (messages l) = l) ∧
  (∀ m : List (List Byte) × List Byte, messages (streamOf m) = m) ∧
  (∀ m : List (List TextUnit) × List TextUnit, messages (streamOf m) = m)

/-! ## Messages through the machine -/

/-- R202: the expansion of `encode(B)` emits the beats of `encode(B)` and `END`, in every session, so whatever messages came before. -/
def Obligations.EncodeOpsComputeEncode : Prop :=
  ∀ (B : List Byte) (σ : Session), ∃ τ, σ.performAll (encodeOps B) = .next τ ∧
    τ.env.encOut = σ.env.encOut ++ messageBeats (encodeBytes Config.ALPHABET B) ∧ τ.machine.block = σ.machine.block

/-- R203: from `DEC.phase = HI` the expansion of `decode(T)` emits the beats of `decode(T)` and `END`, and ends in `HI`. -/
def Obligations.DecodeOpsComputeDecode : Prop :=
  ∀ (T : List TextUnit) (σ : Session), σ.machine.block.phase = .HI →
    ∃ τ, σ.performAll (decodeOps T) = .next τ ∧
      τ.env.decOut = σ.env.decOut ++ messageBeats (decodeText Config.ALPHABET T) ∧ τ.machine.block.phase = .HI

/-- R157: the decoder within one message. -/
def Obligations.DecoderWithinAMessage : Prop :=
  ∀ (T : List TextUnit) (σ : Session), σ.machine.block.pending = none →
    ∃ τ, σ.performAll (T.map Instr.decPut) = .next τ ∧
      (τ.machine.block.pending = none ↔ countRecognized Config.ALPHABET T % 2 = 0) ∧
      (countRecognized Config.ALPHABET T % 2 = 1 →
        ∃ h, (recNibbles Config.ALPHABET T).getLast? = some h ∧ τ.machine.block.pending = some h) ∧
      τ.env.decOut = σ.env.decOut ++ (decodeText Config.ALPHABET T).map Beat.data

/-- From R204, with the schedule and the wire as the model has them (logs 6, 12): `enc_out` is wired to `dec_in`, and at the start nothing
waits on the wire and `DEC.phase = HI`. For every list of messages on `enc_in`, the last perhaps unfinished, and every interleaving `l` of ENC's
beats (an `END` with any payload bits), wire transfers and unrecognised units put in by the wire, so also where the beats of a later message
start before an earlier one is wholly carried: what comes out on `dec_out` is a beginning of the same stream of messages, and all of it once
the wire has carried all that ENC emitted; more wire transfers at the end see to that. -/
def Obligations.LoopBackGivesTheMessageBack : Prop :=
  ∀ (m : List (List Byte) × List Byte) (σ : Session) (l : List Slot),
    σ.machine.block.phase = .HI → σ.env.encTaken = σ.env.encSent.length →
    l.filterMap Slot.encBeat = streamOf m →
    (∀ x ∈ l, (∃ b, x = .offer (.encIn b)) ∨ x = .encToDec ∨
      ∃ b, x = .offer (.decIn b) ∧ b.isEnd = 0 ∧ isRecognised Config.ALPHABET b.payload = false) →
    (∃ τ, σ.play l = .next τ ∧
      τ.env.encOut = σ.env.encOut ++ streamOf (m.1.map (encodeBytes Config.ALPHABET), encodeBytes Config.ALPHABET m.2) ∧
      (∃ d, d <+: streamOf m ∧ τ.env.decOut = σ.env.decOut ++ d) ∧
      (τ.env.encTaken = τ.env.encSent.length →
        τ.env.decOut = σ.env.decOut ++ streamOf m ∧ τ.machine.block.phase = .HI)) ∧
    ∃ k τ, σ.play (l ++ List.replicate k .encToDec) = .next τ ∧
      τ.env.decOut = σ.env.decOut ++ streamOf m ∧ τ.machine.block.phase = .HI

/-- R61: two interleavings with the same ENC operations in the same order and the same DEC operations in the same order (each with the
`RESET`s, which touch both) give the same streams and registers, whatever lookups stand between. -/
def Obligations.InterleavingIsUnobservable : Prop :=
  ∀ (l1 l2 : List Instr) (σ : Session),
    l1.filter (fun i => isEncOp i || isResetOp i) = l2.filter (fun i => isEncOp i || isResetOp i) →
    l1.filter (fun i => isDecOp i || isResetOp i) = l2.filter (fun i => isDecOp i || isResetOp i) →
    ∃ τ1 τ2, σ.performAll l1 = .next τ1 ∧ σ.performAll l2 = .next τ2 ∧
      τ1.machine.block = τ2.machine.block ∧ τ1.env = τ2.env

/-- R224 (b): a beat on `enc_in` and a beat on `dec_in` at one edge: either order leaves the same registers, streams, records and taps. -/
def Obligations.UnitsCommute : Prop :=
  ∀ (i j : Instr) (σ : Session), isEncOp i = true → isDecOp j = true →
    ∃ τ1 τ2, σ.performAll [i, j] = .next τ1 ∧ σ.performAll [j, i] = .next τ2 ∧ SameOutside τ1 τ2

/-- From R22: `DEC.hold` is never read in phase `HI`: states that differ in it alone there cannot be told apart by any operation or by any
step, now or later. -/
def Obligations.HoldIsUnreadableInPhaseHI : Prop :=
  (∀ (i : Instr) (s1 s2 : State), SameView s1 s2 →
    ∃ t1 t2, exec i s1 = .next t1 ∧ exec i s2 = .next t2 ∧ SameView t1 t2) ∧
  ∀ s1 s2 : State, SameView s1 s2 → ∃ t1 t2, step s1 = .next t1 ∧ step s2 = .next t2 ∧ SameView t1 t2

/-- From R250: only `DEC.PUT` reads a register: from any two register contents, power-on's free ones among them, every other operation does
the same to the ports, and `DEC.END` and `RESET` leave phase `HI`. -/
def Obligations.OnlyDecPutReadsTheRegisters : Prop :=
  ∀ (i : Instr) (s : State) (b : Block), (∀ u, i ≠ .decPut u) →
    ∃ t t', exec i s = .next t ∧ exec i { s with block := b } = .next t' ∧ t'.ports = t.ports ∧
      (isEncOp i || isTapOp i → t.block = s.block ∧ t'.block = b) ∧
      (i = .decEnd ∨ i = .reset → t.block.phase = .HI ∧ t'.block.phase = .HI)

/-- R30: after `DEC.END` the decoder is, for all that later operations can read, in the state after `RESET`: any operations of DEC after it emit
the same beats. -/
def Obligations.NothingIsCarriedPastTheEnd : Prop :=
  ∀ (ops : List Instr) (σ : Session), (∀ i ∈ ops, isDecOp i = true) →
    ∃ τ1 τ2 e, σ.performAll (.decEnd :: ops) = .next τ1 ∧ σ.performAll (.reset :: ops) = .next τ2 ∧
      τ1.env.decSent = σ.env.decSent ++ .endBeat :: e ∧ τ2.env.decSent = σ.env.decSent ++ e ∧
      τ1.machine.block.pending = τ2.machine.block.pending

/-! ## Hazards -/

/-- From R254: a text with an odd number of recognised units, no `DEC.END` after it, and then a second text: the held nibble pairs with the first
recognised unit of the second. -/
def Obligations.MissingEndPairsAcrossTexts : Prop :=
  ∀ (T1 T2 : List TextUnit) (h : Nibble) (σ : Session), σ.machine.block.phase = .HI →
    countRecognized Config.ALPHABET T1 % 2 = 1 → (recNibbles Config.ALPHABET T1).getLast? = some h →
    ∃ τ, σ.performAll (T1.map Instr.decPut ++ decodeOps T2) = .next τ ∧
      τ.env.decOut = σ.env.decOut ++
        messageBeats (decodeText Config.ALPHABET T1 ++ pack (h :: recNibbles Config.ALPHABET T2))

/-- From R256: one symbol of a well-formed text lost, or changed into a unit outside the alphabet: one byte fewer, the bytes before it as they
were, and every byte from it on put together from two nibbles of two neighbouring bytes: in its own place the nibble of its byte that is left
and the high nibble of the next, later the low nibble of one byte and the high nibble of the next. -/
def Obligations.LostSymbolShiftsTheRest : Prop :=
  ∀ (w : Nat) (A : Alphabet w) (B : List Byte) (k : Nat), k < 2 * B.length →
    (decodeText A ((encodeBytes A B).eraseIdx k)).length = B.length - 1 ∧
    (decodeText A ((encodeBytes A B).eraseIdx k)).take (k / 2) = B.take (k / 2) ∧
    (∀ b b' : Byte, B[k / 2]? = some b → B[k / 2 + 1]? = some b' →
      (decodeText A ((encodeBytes A B).eraseIdx k))[k / 2]? =
        some (joinNibbles (if k % 2 = 0 then loNibble b else hiNibble b) (hiNibble b'))) ∧
    (∀ (j : Nat) (b b' : Byte), k / 2 < j → B[j]? = some b → B[j + 1]? = some b' →
      (decodeText A ((encodeBytes A B).eraseIdx k))[j]? = some (joinNibbles (loNibble b) (hiNibble b'))) ∧
    (∀ u : BitVec w, isRecognised A u = false →
      decodeText A ((encodeBytes A B).set k u) = decodeText A ((encodeBytes A B).eraseIdx k))

/-- From R256: one symbol of a well-formed text changed into another alphabet symbol: its one byte has the other symbol's nibble in the
symbol's place, so it is wrong, and every other byte is as it was. -/
def Obligations.ChangedSymbolDamagesItsByte : Prop :=
  ∀ (w : Nat) (A : Alphabet w) (B : List Byte) (k : Nat) (v : Nibble) (b : Byte), B[k / 2]? = some b →
    (decodeText A ((encodeBytes A B).set k (A.symbol v))).length = B.length ∧
    (decodeText A ((encodeBytes A B).set k (A.symbol v)))[k / 2]? =
      some (if k % 2 = 0 then joinNibbles v (loNibble b) else joinNibbles (hiNibble b) v) ∧
    ((encodeBytes A B)[k]? ≠ some (A.symbol v) →
      (decodeText A ((encodeBytes A B).set k (A.symbol v)))[k / 2]? ≠ some b) ∧
    ∀ j : Nat, j ≠ k / 2 → (decodeText A ((encodeBytes A B).set k (A.symbol v)))[j]? = B[j]?

/-- From R259: `RESET` in the middle of a text: the consumer keeps the bytes already emitted, no `END` follows them, and the beats of the next
message come directly after. -/
def Obligations.ResetCutsTheMessage : Prop :=
  ∀ (T1 T2 : List TextUnit) (σ : Session), σ.machine.block.phase = .HI →
    ∃ τ, σ.performAll (T1.map Instr.decPut ++ .reset :: decodeOps T2) = .next τ ∧
      τ.env.decSent = σ.env.decSent ++ (decodeText Config.ALPHABET T1).map Beat.data ++
        messageBeats (decodeText Config.ALPHABET T2) ∧
      τ.env.decOut = messageBeats (decodeText Config.ALPHABET T2)
end

