-- ==== Sys2Proof/Laws/Codec.lean ====
section
/-! SUPPORT. How the whole-message functions and the cutting of a stream act on one element more, at the front or at the end. -/

namespace Sys2Proof.Machine.Codec

section
variable {w : Nat} (A : Alphabet w)

/-- A recognised unit adds its nibble in front (42_decoder R152). -/
theorem recNibbles_cons_hit {u : BitVec w} {v : Nibble} (h : s2n A u = some v) (T : List (BitVec w)) :
    recNibbles A (u :: T) = v :: recNibbles A T := by
  simp [recNibbles, h]

/-- An unrecognised unit adds nothing (42_decoder R152). -/
theorem recNibbles_cons_miss {u : BitVec w} (h : s2n A u = none) (T : List (BitVec w)) :
    recNibbles A (u :: T) = recNibbles A T := by
  simp [recNibbles, h]

/-- A recognised unit at the end adds its nibble at the end. -/
theorem recNibbles_snoc_hit {u : BitVec w} {v : Nibble} (h : s2n A u = some v) (T : List (BitVec w)) :
    recNibbles A (T ++ [u]) = recNibbles A T ++ [v] := by
  induction T with
  | nil => simp [recNibbles, h]
  | cons x T ih => cases hx : s2n A x <;> simp [recNibbles, hx, ih]

/-- An unrecognised unit at the end adds nothing. -/
theorem recNibbles_snoc_miss {u : BitVec w} (h : s2n A u = none) (T : List (BitVec w)) :
    recNibbles A (T ++ [u]) = recNibbles A T := by
  induction T with
  | nil => simp [recNibbles, h]
  | cons x T ih => cases hx : s2n A x <;> simp [recNibbles, hx, ih]

end

/-- `pack` of an even beginning and a rest: the pairs of each (42_decoder R152). -/
theorem pack_append_of_even : ∀ {l : List Nibble} (m : List Nibble), l.length % 2 = 0 → pack (l ++ m) = pack l ++ pack m
  | [], _, _ => rfl
  | [_], _, h => by simp at h
  | a :: b :: l, m, h => by
    simp only [List.length_cons] at h
    simp [pack, pack_append_of_even m (by omega : l.length % 2 = 0)]

section
variable {α : Type}

/-- One `DATA` beat more belongs to the message under way (10_state R33). -/
theorem splitMessages_snoc_data (p : α) : ∀ (under : List α) (l : List (Beat α)),
    splitMessages under (l ++ [.data p]) = ((splitMessages under l).1, (splitMessages under l).2 ++ [p])
  | _, [] => rfl
  | under, .data q :: l => splitMessages_snoc_data p (under ++ [q]) l
  | _, .endBeat :: l => by simp [splitMessages, splitMessages_snoc_data p [] l]

/-- One `END` more closes the message under way (10_state R33). -/
theorem splitMessages_snoc_end : ∀ (under : List α) (l : List (Beat α)),
    splitMessages under (l ++ [.endBeat]) = ((splitMessages under l).1 ++ [(splitMessages under l).2], [])
  | _, [] => rfl
  | under, .data q :: l => splitMessages_snoc_end (under ++ [q]) l
  | _, .endBeat :: l => by simp [splitMessages, splitMessages_snoc_end [] l]

theorem messages_snoc_data (p : α) (l : List (Beat α)) :
    messages (l ++ [.data p]) = ((messages l).1, (messages l).2 ++ [p]) := splitMessages_snoc_data p [] l

theorem messages_snoc_end (l : List (Beat α)) :
    messages (l ++ [.endBeat]) = ((messages l).1 ++ [(messages l).2], []) := splitMessages_snoc_end [] l

end
end Sys2Proof.Machine.Codec
end

