-- ==== Sys2Proof/Laws/Decode.lean ====
section
/-! SUPPORT. A beat, its pins and its word, each read back from the other (30_encoding R83), and the two directions of operation
selection (R84). -/

namespace Sys2Proof

variable {n : Nat}

/-- The number on the wires is below `2 ^ (n + 1)`: it fits `n + 1` wires. -/
theorem PinBeat.toNat_lt (b : PinBeat n) : b.toNat < 2 ^ (n + 1) := by
  have he := b.isEnd.isLt
  have hp := b.payload.isLt
  have hm : b.isEnd.toNat * 2 ^ n ≤ 1 * 2 ^ n := Nat.mul_le_mul_right _ (by omega)
  rw [PinBeat.toNat, pow_succ]
  omega

@[simp] theorem PinBeat.toNat_toWord (b : PinBeat n) : b.toWord.toNat = b.toNat := by
  rw [PinBeat.toWord, BitVec.toNat_ofNat, Nat.mod_eq_of_lt b.toNat_lt]

/-- A word below `2 ^ n` has `end = 0`, and its number is the payload. -/
theorem PinBeat.ofWord_of_lt {w : BitVec (n + 1)} (h : w.toNat < 2 ^ n) :
    PinBeat.ofWord w = { isEnd := 0, payload := BitVec.ofNat n w.toNat } := by
  have hb : w.getLsbD n = false := by rw [BitVec.getLsbD, Nat.testBit_lt_two_pow h]
  rw [PinBeat.ofWord, hb]
  congr 1
  exact BitVec.eq_of_toNat_eq (by simp)

/-- A word from `2 ^ n` up has `end = 1`, and the rest of its number is the payload. -/
theorem PinBeat.ofWord_of_ge {w : BitVec (n + 1)} (h : 2 ^ n ≤ w.toNat) :
    PinBeat.ofWord w = { isEnd := 1, payload := BitVec.ofNat n (w.toNat - 2 ^ n) } := by
  have hlt := w.isLt
  have hp := Nat.two_pow_pos n
  rw [pow_succ] at hlt
  have hd : w.toNat / 2 ^ n = 1 := Nat.div_eq_of_lt_le (by omega) (by omega)
  have hb : w.getLsbD n = true := by
    rw [BitVec.getLsbD, Nat.testBit_eq_decide_div_mod_eq, hd]
    rfl
  rw [PinBeat.ofWord, hb]
  congr 1
  refine BitVec.eq_of_toNat_eq ?_
  rw [BitVec.toNat_setWidth, BitVec.toNat_ofNat, Nat.mod_eq_sub_mod h]

/-- The fields of the word that a beat makes are the beat. -/
theorem PinBeat.ofWord_toWord (b : PinBeat n) : PinBeat.ofWord b.toWord = b := by
  obtain ⟨e, p⟩ := b
  have hp := p.isLt
  have hlt := e.isLt
  have he : e = 0 ∨ e = 1 := by
    rcases (by omega : e.toNat = 0 ∨ e.toNat = 1) with h | h
    · exact .inl (BitVec.eq_of_toNat_eq (by simpa using h))
    · exact .inr (BitVec.eq_of_toNat_eq (by simpa using h))
  rcases he with rfl | rfl
  · have ht : (PinBeat.toWord ⟨0, p⟩).toNat = p.toNat := by rw [PinBeat.toNat_toWord]; simp [PinBeat.toNat]
    rw [PinBeat.ofWord_of_lt (by omega), ht]
    simp
  · have ht : (PinBeat.toWord ⟨1, p⟩).toNat = 2 ^ n + p.toNat := by rw [PinBeat.toNat_toWord]; simp [PinBeat.toNat]
    rw [PinBeat.ofWord_of_ge (by omega), ht]
    simp

/-- An output port drives what an input port reads as the same beat, so the units can be wired (R83). -/
@[simp] theorem Beat.ofPins_toPins (b : Beat (BitVec n)) : Beat.ofPins b.toPins = b := by
  cases b <;> rfl

/-- A beat transferred on `enc_in` selects one operation (R84). -/
theorem decode_encIn (b : PinBeat 8) :
    decode (.encIn b) = .ok (match Beat.ofPins b with | .data p => .encPut p | .endBeat => .encEnd) := by
  rw [decode]
  cases Beat.ofPins b <;> rfl

/-- A beat transferred on `dec_in` selects one operation (R84). -/
theorem decode_decIn (b : PinBeat Config.SYMW) :
    decode (.decIn b) = .ok (match Beat.ofPins b with | .data u => .decPut u | .endBeat => .decEnd) := by
  rw [decode]
  cases Beat.ofPins b <;> rfl

/-- The pins of an operation select it (R83, R84, R86). -/
theorem decode_encode (i : Instr) : decode (encode i) = .ok i := by
  cases i <;> rfl

end Sys2Proof
end

