-- ==== Sys2Proof/Laws/Lookup.lean ====
section
/-! SUPPORT. What the two lookups answer, once: the property by which 40_alphabet_lookup R111 and R113 define `S2N`. -/

namespace Sys2Proof.Machine

/-- The ROM's address list holds every nibble (20_memory R50, R58). -/
theorem mem_allNibbles (v : Nibble) : v ∈ allNibbles := by revert v; decide

variable {w : Nat} (A : Alphabet w)

/-- `S2N` hits with `v` exactly when entry `v` equals the unit (R111, R112). -/
theorem s2n_eq_some_iff (u : BitVec w) (v : Nibble) : s2n A u = some v ↔ A.symbol v = u := by
  constructor
  · intro h
    simpa [romRead] using List.find?_some h
  · intro h
    cases hf : s2n A u with
    | none => exact absurd h (by simpa [s2n, romRead] using List.find?_eq_none.mp hf v (mem_allNibbles v))
    | some v' =>
      have hv' : A.symbol v' = u := by simpa [romRead] using List.find?_some hf
      exact congrArg some (A.distinct _ _ (hv'.trans h.symm))

/-- `S2N` misses exactly when no entry equals the unit (R111). -/
theorem s2n_eq_none_iff (u : BitVec w) : s2n A u = none ↔ ∀ v, A.symbol v ≠ u := by
  constructor
  · intro h v hv
    simp [(s2n_eq_some_iff A u v).mpr hv] at h
  · intro h
    cases hf : s2n A u with
    | none => rfl
    | some v => exact absurd ((s2n_eq_some_iff A u v).mp hf) (h v)

/-- Every entry is recognised as itself. -/
theorem s2n_symbol (v : Nibble) : s2n A (A.symbol v) = some v := (s2n_eq_some_iff A _ _).mpr rfl

/-- With more than four bits to a unit there is one that no entry equals: 17 units cannot all be among 16 entries. -/
theorem exists_unrecognised (hw : 4 < w) : ∃ u : BitVec w, ∀ v, A.symbol v ≠ u := by
  by_contra hall
  push Not at hall
  choose f hf using fun i : Fin 17 => hall (BitVec.ofNat w i)
  have hinj : Function.Injective (fun i : Fin 17 => (f i).toFin) := by
    intro i j hij
    have heq : f i = f j := BitVec.toFin_inj.mp hij
    have hu := (hf i).symm.trans ((congrArg A.symbol heq).trans (hf j))
    have hpow : 2 ^ 5 ≤ 2 ^ w := Nat.pow_le_pow_right (by decide) hw
    have hnat := congrArg BitVec.toNat hu
    simp only [BitVec.toNat_ofNat] at hnat
    rw [Nat.mod_eq_of_lt (by omega), Nat.mod_eq_of_lt (by omega)] at hnat
    exact Fin.ext hnat
  simpa using Fintype.card_le_of_injective _ hinj

end Sys2Proof.Machine
end

