-- ==== Sys2Proof/Laws/State.lean ====
section
/-! SUPPORT. Each field of the state and of the session after each update: one lemma per pair, so that no proof unfolds a record
update. -/

namespace Sys2Proof.Machine

@[simp] theorem resetLevel_rst (level : BitVec 1) : resetLevel (.rst level) = some level := rfl
@[simp] theorem resetLevel_encIn (b : PinBeat 8) : resetLevel (.encIn b) = none := rfl
@[simp] theorem resetLevel_decIn (b : PinBeat Config.SYMW) : resetLevel (.decIn b) = none := rfl
@[simp] theorem resetLevel_n2sV (v : Nibble) : resetLevel (.n2sV v) = none := rfl
@[simp] theorem resetLevel_s2nU (u : TextUnit) : resetLevel (.s2nU u) = none := rfl
@[simp] theorem resetLevel_code (v : Nibble) : resetLevel (.code v) = none := rfl

end Sys2Proof.Machine

namespace Sys2Proof.Machine.State

section
variable (s : State)
@[simp] theorem beginStep_block : (s.beginStep).block = s.block := rfl
@[simp] theorem beginStep_rst : (s.beginStep).ports.rst = s.ports.rst := rfl
@[simp] theorem beginStep_offered : (s.beginStep).ports.offered = s.ports.offered := rfl
@[simp] theorem beginStep_encOut : (s.beginStep).ports.encOut = [] := rfl
@[simp] theorem beginStep_decOut : (s.beginStep).ports.decOut = [] := rfl
@[simp] theorem beginStep_n2sV : (s.beginStep).ports.n2sV = s.ports.n2sV := rfl
@[simp] theorem beginStep_s2nU : (s.beginStep).ports.s2nU = s.ports.s2nU := rfl
@[simp] theorem beginStep_sample : (s.beginStep).ports.sample = s.ports.sample + 1 := rfl
end

section
variable (b : Beat TextUnit) (s : State)
@[simp] theorem emitEnc_block : (s.emitEnc b).block = s.block := rfl
@[simp] theorem emitEnc_rst : (s.emitEnc b).ports.rst = s.ports.rst := rfl
@[simp] theorem emitEnc_offered : (s.emitEnc b).ports.offered = s.ports.offered := rfl
@[simp] theorem emitEnc_encOut : (s.emitEnc b).ports.encOut = s.ports.encOut ++ [b] := rfl
@[simp] theorem emitEnc_decOut : (s.emitEnc b).ports.decOut = s.ports.decOut := rfl
@[simp] theorem emitEnc_n2sV : (s.emitEnc b).ports.n2sV = s.ports.n2sV := rfl
@[simp] theorem emitEnc_s2nU : (s.emitEnc b).ports.s2nU = s.ports.s2nU := rfl
@[simp] theorem emitEnc_sample : (s.emitEnc b).ports.sample = s.ports.sample := rfl
end

section
variable (b : Beat Byte) (s : State)
@[simp] theorem emitDec_block : (s.emitDec b).block = s.block := rfl
@[simp] theorem emitDec_rst : (s.emitDec b).ports.rst = s.ports.rst := rfl
@[simp] theorem emitDec_offered : (s.emitDec b).ports.offered = s.ports.offered := rfl
@[simp] theorem emitDec_encOut : (s.emitDec b).ports.encOut = s.ports.encOut := rfl
@[simp] theorem emitDec_decOut : (s.emitDec b).ports.decOut = s.ports.decOut ++ [b] := rfl
@[simp] theorem emitDec_n2sV : (s.emitDec b).ports.n2sV = s.ports.n2sV := rfl
@[simp] theorem emitDec_s2nU : (s.emitDec b).ports.s2nU = s.ports.s2nU := rfl
@[simp] theorem emitDec_sample : (s.emitDec b).ports.sample = s.ports.sample := rfl
end

section
variable (v : Nibble) (s : State)
@[simp] theorem driveN2s_block : (s.driveN2s v).block = s.block := rfl
@[simp] theorem driveN2s_rst : (s.driveN2s v).ports.rst = s.ports.rst := rfl
@[simp] theorem driveN2s_offered : (s.driveN2s v).ports.offered = s.ports.offered := rfl
@[simp] theorem driveN2s_encOut : (s.driveN2s v).ports.encOut = s.ports.encOut := rfl
@[simp] theorem driveN2s_decOut : (s.driveN2s v).ports.decOut = s.ports.decOut := rfl
@[simp] theorem driveN2s_n2sV : (s.driveN2s v).ports.n2sV = v := rfl
@[simp] theorem driveN2s_s2nU : (s.driveN2s v).ports.s2nU = s.ports.s2nU := rfl
@[simp] theorem driveN2s_sample : (s.driveN2s v).ports.sample = s.ports.sample := rfl
end

section
variable (u : TextUnit) (s : State)
@[simp] theorem driveS2n_block : (s.driveS2n u).block = s.block := rfl
@[simp] theorem driveS2n_rst : (s.driveS2n u).ports.rst = s.ports.rst := rfl
@[simp] theorem driveS2n_offered : (s.driveS2n u).ports.offered = s.ports.offered := rfl
@[simp] theorem driveS2n_encOut : (s.driveS2n u).ports.encOut = s.ports.encOut := rfl
@[simp] theorem driveS2n_decOut : (s.driveS2n u).ports.decOut = s.ports.decOut := rfl
@[simp] theorem driveS2n_n2sV : (s.driveS2n u).ports.n2sV = s.ports.n2sV := rfl
@[simp] theorem driveS2n_s2nU : (s.driveS2n u).ports.s2nU = u := rfl
@[simp] theorem driveS2n_sample : (s.driveS2n u).ports.sample = s.ports.sample := rfl
end

section
variable (x : Input) (s : State)
@[simp] theorem offer_block : (s.offer x).block = s.block := rfl
@[simp] theorem offer_rst : (s.offer x).ports.rst = resetLevel x := rfl
@[simp] theorem offer_offered :
    (s.offer x).ports.offered = if (resetLevel x).isSome then s.ports.offered else some x := rfl
@[simp] theorem offer_encOut : (s.offer x).ports.encOut = s.ports.encOut := rfl
@[simp] theorem offer_decOut : (s.offer x).ports.decOut = s.ports.decOut := rfl
@[simp] theorem offer_n2sV : (s.offer x).ports.n2sV = s.ports.n2sV := rfl
@[simp] theorem offer_s2nU : (s.offer x).ports.s2nU = s.ports.s2nU := rfl
@[simp] theorem offer_sample : (s.offer x).ports.sample = s.ports.sample := rfl
end

section
variable (s : State)
@[simp] theorem take_block : (s.take).block = s.block := rfl
@[simp] theorem take_rst : (s.take).ports.rst = none := rfl
@[simp] theorem take_offered : (s.take).ports.offered = if s.ports.rst.isSome then s.ports.offered else none := rfl
@[simp] theorem take_encOut : (s.take).ports.encOut = s.ports.encOut := rfl
@[simp] theorem take_decOut : (s.take).ports.decOut = s.ports.decOut := rfl
@[simp] theorem take_n2sV : (s.take).ports.n2sV = s.ports.n2sV := rfl
@[simp] theorem take_s2nU : (s.take).ports.s2nU = s.ports.s2nU := rfl
@[simp] theorem take_sample : (s.take).ports.sample = s.ports.sample := rfl
end

section
variable (p : Phase) (v : Nibble) (s : State)
@[simp] theorem setPhase_ports : (s.setPhase p).ports = s.ports := rfl
@[simp] theorem setPhase_phase : (s.setPhase p).block.phase = p := rfl
@[simp] theorem setPhase_hold : (s.setPhase p).block.hold = s.block.hold := rfl
@[simp] theorem setHold_ports : (s.setHold v).ports = s.ports := rfl
@[simp] theorem setHold_phase : (s.setHold v).block.phase = s.block.phase := rfl
@[simp] theorem setHold_hold : (s.setHold v).block.hold = v := rfl
end

section
variable (x : Input) (v : Nibble) (s : State)
@[simp] theorem presented_offer : (s.offer x).presented = some x := by cases x <;> rfl
theorem take_offer_rst (level : BitVec 1) :
    (s.offer (.rst level)).take = { s with ports := { s.ports with rst := none } } := rfl
theorem take_offer_of_not_rst (h : resetLevel x = none) :
    (s.offer x).take = { s with ports := { s.ports with rst := none, offered := none } } := by
  simp [State.offer, State.take, h]
theorem presented_of_rst {level : BitVec 1} (h : s.ports.rst = some level) : s.presented = some (.rst level) := by
  simp [State.presented, h]
theorem presented_of_no_rst (h : s.ports.rst = none) : s.presented = s.ports.offered := by
  simp [State.presented, h]
@[simp] theorem showRow_block : (s.showRow v).block = s.block := rfl
@[simp] theorem showRow_rst : (s.showRow v).ports.rst = s.ports.rst := rfl
@[simp] theorem showRow_offered : (s.showRow v).ports.offered = s.ports.offered := rfl
@[simp] theorem showRow_encOut : (s.showRow v).ports.encOut = s.ports.encOut := rfl
@[simp] theorem showRow_decOut : (s.showRow v).ports.decOut = s.ports.decOut := rfl
@[simp] theorem showRow_n2sV : (s.showRow v).ports.n2sV = v := rfl
@[simp] theorem showRow_s2nU : (s.showRow v).ports.s2nU = n2s Config.ALPHABET v := rfl
end

end Sys2Proof.Machine.State

namespace Sys2Proof.Machine.Env

section
variable (e : Env)
@[simp] theorem restart_encIn : (e.restart).encIn = [] := rfl
@[simp] theorem restart_encOut : (e.restart).encOut = [] := rfl
@[simp] theorem restart_decIn : (e.restart).decIn = [] := rfl
@[simp] theorem restart_decOut : (e.restart).decOut = [] := rfl
@[simp] theorem restart_encSent : (e.restart).encSent = e.encSent := rfl
@[simp] theorem restart_decSent : (e.restart).decSent = e.decSent := rfl
@[simp] theorem restart_encTaken : (e.restart).encTaken = e.encTaken := rfl
@[simp] theorem restart_decTaken : (e.restart).decTaken = e.decTaken := rfl
end

section
variable (p : Ports) (e : Env)
@[simp] theorem collect_encIn : (e.collect p).encIn = e.encIn := rfl
@[simp] theorem collect_encOut : (e.collect p).encOut = e.encOut ++ p.encOut := rfl
@[simp] theorem collect_decIn : (e.collect p).decIn = e.decIn := rfl
@[simp] theorem collect_decOut : (e.collect p).decOut = e.decOut ++ p.decOut := rfl
@[simp] theorem collect_encSent : (e.collect p).encSent = e.encSent ++ p.encOut := rfl
@[simp] theorem collect_decSent : (e.collect p).decSent = e.decSent ++ p.decOut := rfl
@[simp] theorem collect_encTaken : (e.collect p).encTaken = e.encTaken := rfl
@[simp] theorem collect_decTaken : (e.collect p).decTaken = e.decTaken := rfl
end

section
variable (e : Env)
@[simp] theorem advanceEncWire_encIn : (e.advanceEncWire).encIn = e.encIn := rfl
@[simp] theorem advanceEncWire_encOut : (e.advanceEncWire).encOut = e.encOut := rfl
@[simp] theorem advanceEncWire_decIn : (e.advanceEncWire).decIn = e.decIn := rfl
@[simp] theorem advanceEncWire_decOut : (e.advanceEncWire).decOut = e.decOut := rfl
@[simp] theorem advanceEncWire_encSent : (e.advanceEncWire).encSent = e.encSent := rfl
@[simp] theorem advanceEncWire_decSent : (e.advanceEncWire).decSent = e.decSent := rfl
@[simp] theorem advanceEncWire_encTaken : (e.advanceEncWire).encTaken = e.encTaken + 1 := rfl
@[simp] theorem advanceEncWire_decTaken : (e.advanceEncWire).decTaken = e.decTaken := rfl
end

section
variable (e : Env)
@[simp] theorem advanceDecWire_encIn : (e.advanceDecWire).encIn = e.encIn := rfl
@[simp] theorem advanceDecWire_encOut : (e.advanceDecWire).encOut = e.encOut := rfl
@[simp] theorem advanceDecWire_decIn : (e.advanceDecWire).decIn = e.decIn := rfl
@[simp] theorem advanceDecWire_decOut : (e.advanceDecWire).decOut = e.decOut := rfl
@[simp] theorem advanceDecWire_encSent : (e.advanceDecWire).encSent = e.encSent := rfl
@[simp] theorem advanceDecWire_decSent : (e.advanceDecWire).decSent = e.decSent := rfl
@[simp] theorem advanceDecWire_encTaken : (e.advanceDecWire).encTaken = e.encTaken := rfl
@[simp] theorem advanceDecWire_decTaken : (e.advanceDecWire).decTaken = e.decTaken + 1 := rfl
end

section
variable (e : Env)
@[simp] theorem accept_rst_one : e.accept (.rst 1#1) = e.restart := rfl
@[simp] theorem accept_rst_zero : e.accept (.rst 0#1) = e := rfl
@[simp] theorem accept_encIn (b : PinBeat 8) : e.accept (.encIn b) = { e with encIn := e.encIn ++ [Beat.ofPins b] } := rfl
@[simp] theorem accept_decIn (b : PinBeat Config.SYMW) :
    e.accept (.decIn b) = { e with decIn := e.decIn ++ [Beat.ofPins b] } := rfl
@[simp] theorem accept_n2sV (v : Nibble) : e.accept (.n2sV v) = e := rfl
@[simp] theorem accept_s2nU (u : TextUnit) : e.accept (.s2nU u) = e := rfl
@[simp] theorem accept_code (v : Nibble) : e.accept (.code v) = e := rfl
end

end Sys2Proof.Machine.Env

namespace Sys2Proof.Machine.Session

variable (x : Input) (t : State) (σ : Session)
@[simp] theorem drive_machine : (σ.drive x).machine = σ.machine.offer x := rfl
@[simp] theorem drive_env : (σ.drive x).env = σ.env := rfl
@[simp] theorem record_drive (y : Input) : (σ.drive x).record y t = σ.record y t := rfl
@[simp] theorem record_machine : (σ.record x t).machine = t := rfl
@[simp] theorem record_env : (σ.record x t).env = (σ.env.accept x).collect t.ports := rfl

end Sys2Proof.Machine.Session

namespace Sys2Proof.Machine.Slot

@[simp] theorem encBeat_encIn (b : PinBeat 8) : (Slot.offer (.encIn b)).encBeat = some (Beat.ofPins b) := rfl
@[simp] theorem encBeat_decIn (b : PinBeat Config.SYMW) : (Slot.offer (.decIn b)).encBeat = none := rfl
@[simp] theorem encBeat_drive (x : Input) : (Slot.drive x).encBeat = none := rfl
@[simp] theorem encBeat_edge : Slot.edge.encBeat = none := rfl
@[simp] theorem encBeat_encToDec : Slot.encToDec.encBeat = none := rfl
@[simp] theorem encBeat_decToEnc : Slot.decToEnc.encBeat = none := rfl

end Sys2Proof.Machine.Slot
end

