-- ==== Sys2Proof/Laws/Ops.lean ====
section
/-! SUPPORT. What each shared operation can do, said once: `takeUnit` (42_decoder R150), and the view of the registers as one pending nibble (10_state R22). -/

namespace Sys2Proof.Machine

theorem Block.pending_of_HI {b : Block} (h : b.phase = .HI) : b.pending = none := by simp [Block.pending, h]

theorem Block.pending_of_LO {b : Block} (h : b.phase = .LO) : b.pending = some b.hold := by simp [Block.pending, h]

theorem Block.pending_eq_none_iff (b : Block) : b.pending = none ↔ b.phase = .HI := by
  cases h : b.phase <;> simp [Block.pending, h]

theorem Block.pending_eq_some_iff (b : Block) (v : Nibble) : b.pending = some v ↔ b.phase = .LO ∧ b.hold = v := by
  cases h : b.phase <;> simp [Block.pending, h]

/-- An unrecognised unit: nothing at all happens (R150). -/
theorem State.takeUnit_of_miss {u : TextUnit} (h : s2n Config.ALPHABET u = none) (s : State) : s.takeUnit u = s := by
  simp [State.takeUnit, h]

/-- A recognised unit in phase `HI` is held (R150). -/
theorem State.takeUnit_of_HI {u : TextUnit} {v : Nibble} (h : s2n Config.ALPHABET u = some v) {s : State}
    (hp : s.block.phase = .HI) : s.takeUnit u = (s.setHold v).setPhase .LO := by
  simp [State.takeUnit, h, hp]

/-- A recognised unit in phase `LO` completes a byte (R150). -/
theorem State.takeUnit_of_LO {u : TextUnit} {v : Nibble} (h : s2n Config.ALPHABET u = some v) {s : State}
    (hp : s.block.phase = .LO) :
    s.takeUnit u = (s.emitDec (.data (joinNibbles s.block.hold v))).setPhase .HI := by
  simp [State.takeUnit, h, hp]

/-- `takeUnit` touches the ports only by emitting at most one beat on `dec_out` (R150). -/
theorem State.takeUnit_ports (u : TextUnit) (s : State) :
    ∃ e, (s.takeUnit u).ports = { s.ports with decOut := s.ports.decOut ++ e } ∧ e.length ≤ 1 := by
  cases h : s2n Config.ALPHABET u with
  | none => exact ⟨[], by simp [State.takeUnit_of_miss h], by simp⟩
  | some v =>
    cases hp : s.block.phase with
    | HI => exact ⟨[], by simp [State.takeUnit_of_HI h hp], by simp⟩
    | LO => exact ⟨[.data (joinNibbles s.block.hold v)], by rw [State.takeUnit_of_LO h hp]; rfl, by simp⟩

/-- The phase bit's encoding reads back (R21, D8). -/
theorem Phase.ofBit_toBit (p : Phase) : Phase.ofBit p.toBit = p := by cases p <;> rfl

end Sys2Proof.Machine
end

