-- ==== Sys2Proof/Laws/Exec.lean ====
section
/-! SUPPORT. What an operation, a step and a move of the environment can do, said once: later proofs split on these cases and unfold
none of them. -/

namespace Sys2Proof.Machine

/-- Every operation with what it answers (30_encoding R84, R86). -/
theorem exec_cases (i : Instr) (s : State) :
    (∃ b, i = .encPut b ∧ exec i s =
      .next ((s.beginStep.emitEnc (.data (n2s Config.ALPHABET (hiNibble b)))).emitEnc
        (.data (n2s Config.ALPHABET (loNibble b))))) ∨
    (i = .encEnd ∧ exec i s = .next (s.beginStep.emitEnc .endBeat)) ∨
    (∃ u, i = .decPut u ∧ exec i s = .next (s.beginStep.takeUnit u)) ∨
    (i = .decEnd ∧ exec i s = .next ((s.beginStep.setPhase .HI).emitDec .endBeat)) ∨
    (i = .reset ∧ exec i s = .next (s.beginStep.setPhase .HI)) ∨
    (∃ v, i = .n2s v ∧ exec i s = .next (s.beginStep.driveN2s v)) ∨
    (∃ u, i = .s2n u ∧ exec i s = .next (s.beginStep.driveS2n u)) ∨
    (∃ v, i = symRow v ∧ exec i s = .next (s.beginStep.showRow v)) := by
  cases i with
  | encPut b => exact .inl ⟨b, rfl, rfl⟩
  | encEnd => exact .inr (.inl ⟨rfl, rfl⟩)
  | decPut u => exact .inr (.inr (.inl ⟨u, rfl, rfl⟩))
  | decEnd => exact .inr (.inr (.inr (.inl ⟨rfl, rfl⟩)))
  | reset => exact .inr (.inr (.inr (.inr (.inl ⟨rfl, rfl⟩))))
  | n2s v => exact .inr (.inr (.inr (.inr (.inr (.inl ⟨v, rfl, rfl⟩)))))
  | s2n u => exact .inr (.inr (.inr (.inr (.inr (.inr (.inl ⟨u, rfl, rfl⟩))))))
  | sym0 => exact .inr (.inr (.inr (.inr (.inr (.inr (.inr ⟨0, rfl, rfl⟩))))))
  | sym1 => exact .inr (.inr (.inr (.inr (.inr (.inr (.inr ⟨1, rfl, rfl⟩))))))
  | sym2 => exact .inr (.inr (.inr (.inr (.inr (.inr (.inr ⟨2, rfl, rfl⟩))))))
  | sym3 => exact .inr (.inr (.inr (.inr (.inr (.inr (.inr ⟨3, rfl, rfl⟩))))))
  | sym4 => exact .inr (.inr (.inr (.inr (.inr (.inr (.inr ⟨4, rfl, rfl⟩))))))
  | sym5 => exact .inr (.inr (.inr (.inr (.inr (.inr (.inr ⟨5, rfl, rfl⟩))))))
  | sym6 => exact .inr (.inr (.inr (.inr (.inr (.inr (.inr ⟨6, rfl, rfl⟩))))))
  | sym7 => exact .inr (.inr (.inr (.inr (.inr (.inr (.inr ⟨7, rfl, rfl⟩))))))
  | sym8 => exact .inr (.inr (.inr (.inr (.inr (.inr (.inr ⟨8, rfl, rfl⟩))))))
  | sym9 => exact .inr (.inr (.inr (.inr (.inr (.inr (.inr ⟨9, rfl, rfl⟩))))))
  | sym10 => exact .inr (.inr (.inr (.inr (.inr (.inr (.inr ⟨10, rfl, rfl⟩))))))
  | sym11 => exact .inr (.inr (.inr (.inr (.inr (.inr (.inr ⟨11, rfl, rfl⟩))))))
  | sym12 => exact .inr (.inr (.inr (.inr (.inr (.inr (.inr ⟨12, rfl, rfl⟩))))))
  | sym13 => exact .inr (.inr (.inr (.inr (.inr (.inr (.inr ⟨13, rfl, rfl⟩))))))
  | sym14 => exact .inr (.inr (.inr (.inr (.inr (.inr (.inr ⟨14, rfl, rfl⟩))))))
  | sym15 => exact .inr (.inr (.inr (.inr (.inr (.inr (.inr ⟨15, rfl, rfl⟩))))))

/-- A row of the code table is shown at the taps (30_encoding R86). -/
theorem exec_symRow (v : Nibble) (s : State) : exec (symRow v) s = .next (s.beginStep.showRow v) := by
  have h := mem_allNibbles v
  simp only [allNibbles, List.mem_cons, List.not_mem_nil, or_false] at h
  rcases h with rfl | rfl | rfl | rfl | rfl | rfl | rfl | rfl | rfl | rfl | rfl | rfl | rfl | rfl | rfl | rfl <;> rfl

/-- An operation answers a next state. -/
theorem exec_total (i : Instr) (s : State) : ∃ t, exec i s = .next t := by
  cases i <;> exact ⟨_, rfl⟩

/-- An operation answers one state. -/
theorem exec_next_unique {i : Instr} {s t u : State} (ht : exec i s = .next t) (hu : exec i s = .next u) : t = u := by
  rw [hu] at ht
  exact (Host.Outcome.next.inj ht).symm

/-- A step on a presented input that selects an operation is that operation. -/
theorem step_of_presented {x : Input} {i : Instr} {s : State} (hs : s.presented = some x) (h : decode x = .ok i) :
    step s = exec i s.take := by
  simp [step, fetch, hs, h]

/-- The same where the environment has just presented the input. -/
theorem step_offer {x : Input} {i : Instr} (h : decode x = .ok i) (s : State) : step (s.offer x) = exec i (s.offer x).take :=
  step_of_presented (s.presented_offer x) h

/-- A step either carries out the operation of what is presented, or only begins and ends. -/
theorem step_cases (s : State) :
    (∃ x i, s.presented = some x ∧ decode x = .ok i ∧ step s = exec i s.take) ∨
    (∃ x r, s.presented = some x ∧ decode x = .error r ∧ step s = .next s.take.beginStep) ∨
    (s.presented = none ∧ step s = .next s.take.beginStep) := by
  cases ho : s.presented with
  | none => exact .inr (.inr ⟨rfl, by simp [step, fetch, ho]⟩)
  | some x =>
    cases hd : decode x with
    | ok i => exact .inl ⟨x, i, rfl, hd, step_of_presented ho hd⟩
    | error r => exact .inr (.inl ⟨x, r, rfl, hd, by simp [step, fetch, ho, hd]⟩)

/-- Every step answers a next state. -/
theorem step_total (s : State) : ∃ t, step s = .next t := by
  rcases step_cases s with ⟨x, i, _, _, h⟩ | ⟨x, r, _, _, h⟩ | ⟨_, h⟩
  · obtain ⟨t, ht⟩ := exec_total i s.take
    exact ⟨t, h.trans ht⟩
  · exact ⟨_, h⟩
  · exact ⟨_, h⟩

/-! ## The session -/

/-- All that an edge can do: a step on what is presented, and its record; or a step on nothing. -/
theorem Session.edge_cases (σ : Session) :
    ∃ t, step σ.machine = .next t ∧
      ((∃ x, σ.machine.presented = some x ∧ σ.edge = .next (σ.record x t)) ∨
        (σ.machine.presented = none ∧ t = σ.machine.take.beginStep ∧ σ.edge = .next { σ with machine := t })) := by
  obtain ⟨t, h⟩ := step_total σ.machine
  refine ⟨t, h, ?_⟩
  cases hp : σ.machine.presented with
  | some x => exact .inl ⟨x, rfl, by simp [Session.edge, h, hp]⟩
  | none =>
    refine .inr ⟨rfl, ?_, by simp [Session.edge, h, hp]⟩
    have hn : step σ.machine = .next σ.machine.take.beginStep := by simp [step, fetch, hp]
    rw [h] at hn
    exact Host.Outcome.next.inj hn

/-- What presenting an input does: one step, and its record. -/
theorem Session.present_of_step {x : Input} {σ : Session} {t : State} (h : step (σ.machine.offer x) = .next t) :
    σ.present x = .next (σ.record x t) := by
  simp [Session.present, Session.edge, h]

/-- Presenting an input answers the session recorded after a step, and nothing else. -/
theorem Session.present_cases (x : Input) (σ : Session) :
    ∃ t, step (σ.machine.offer x) = .next t ∧ σ.present x = .next (σ.record x t) := by
  obtain ⟨t, h⟩ := step_total (σ.machine.offer x)
  exact ⟨t, h, Session.present_of_step h⟩

/-- Performing an operation is `exec` of it and its record. -/
theorem Session.perform_cases (i : Instr) (σ : Session) :
    ∃ t, exec i (σ.machine.offer (encode i)).take = .next t ∧ σ.perform i = .next (σ.record (encode i) t) := by
  obtain ⟨t, h⟩ := exec_total i (σ.machine.offer (encode i)).take
  exact ⟨t, h, Session.present_of_step ((step_offer (decode_encode i) _).trans h)⟩

/-- The one input that selects no operation is an edge with `rst = 0` (R84, R87). -/
theorem decode_error_iff (x : Input) : (∃ r, decode x = .error r) ↔ x = .rst 0 := by
  constructor
  · rintro ⟨r, h⟩
    cases x with
    | rst level =>
      by_cases hl : level = 1
      · simp [decode, hl] at h
      · have hlt := level.isLt
        have h1 : level.toNat ≠ 1 := fun hc => hl (BitVec.eq_of_toNat_eq (by simpa using hc))
        exact congrArg Input.rst (BitVec.eq_of_toNat_eq (by simp; omega))
    | encIn b => rw [decode_encIn] at h; cases h
    | decIn b => rw [decode_decIn] at h; cases h
    | n2sV v => cases h
    | s2nU u => cases h
    | code v => cases h
  · rintro rfl
    exact ⟨_, rfl⟩

/-- All that one move of the environment can do: an input with its edge, an input alone, an edge alone, a wire's next beat, or nothing. -/
theorem Session.move_cases (x : Slot) (σ : Session) :
    (∃ y, x = .offer y ∧ σ.move x = σ.present y) ∨
    (∃ y, x = .drive y ∧ σ.move x = .next (σ.drive y)) ∨
    (x = .edge ∧ σ.move x = σ.edge) ∨
    (∃ b, x = .encToDec ∧ σ.env.encSent[σ.env.encTaken]? = some b ∧
      σ.move x = Session.present (.decIn b.toPins) { σ with env := σ.env.advanceEncWire }) ∨
    (∃ b, x = .decToEnc ∧ σ.env.decSent[σ.env.decTaken]? = some b ∧
      σ.move x = Session.present (.encIn b.toPins) { σ with env := σ.env.advanceDecWire }) ∨
    σ.move x = .next σ := by
  cases x with
  | offer y => exact .inl ⟨y, rfl, rfl⟩
  | drive y => exact .inr (.inl ⟨y, rfl, rfl⟩)
  | edge => exact .inr (.inr (.inl ⟨rfl, rfl⟩))
  | encToDec =>
    cases h : σ.env.encSent[σ.env.encTaken]? with
    | some b => exact .inr (.inr (.inr (.inl ⟨b, rfl, rfl, by simp [Session.move, h]⟩)))
    | none => exact .inr (.inr (.inr (.inr (.inr (by simp [Session.move, h])))))
  | decToEnc =>
    cases h : σ.env.decSent[σ.env.decTaken]? with
    | some b => exact .inr (.inr (.inr (.inr (.inl ⟨b, rfl, rfl, by simp [Session.move, h]⟩))))
    | none => exact .inr (.inr (.inr (.inr (.inr (by simp [Session.move, h])))))

/-- An edge answers a session. -/
theorem Session.edge_total (σ : Session) : ∃ τ, σ.edge = .next τ := by
  obtain ⟨t, _, ⟨x, _, h⟩ | ⟨_, _, h⟩⟩ := Session.edge_cases σ
  · exact ⟨_, h⟩
  · exact ⟨_, h⟩

/-- Every move answers a session. -/
theorem Session.move_total (x : Slot) (σ : Session) : ∃ τ, σ.move x = .next τ := by
  rcases Session.move_cases x σ with ⟨y, _, h⟩ | ⟨y, _, h⟩ | ⟨_, h⟩ | ⟨b, _, _, h⟩ | ⟨b, _, _, h⟩ | h
  · exact h ▸ Session.edge_total _
  · exact ⟨_, h⟩
  · exact h ▸ Session.edge_total _
  · exact h ▸ Session.edge_total _
  · exact h ▸ Session.edge_total _
  · exact ⟨_, h⟩

@[simp] theorem Session.play_nil (σ : Session) : σ.play [] = .next σ := rfl

/-- A schedule is its first move and then the rest. -/
theorem Session.play_cons {x : Slot} {σ τ : Session} (h : σ.move x = .next τ) (l : List Slot) : σ.play (x :: l) = τ.play l := by
  simp [Session.play, h]

/-- One schedule after another. -/
theorem Session.play_append (l m : List Slot) : ∀ {σ τ : Session}, σ.play l = .next τ → σ.play (l ++ m) = τ.play m := by
  induction l with
  | nil => intro σ τ h; cases h; rfl
  | cons x l ih =>
    intro σ τ h
    obtain ⟨ρ, hρ⟩ := Session.move_total x σ
    rw [Session.play_cons hρ] at h
    rw [List.cons_append, Session.play_cons hρ]
    exact ih h

/-- A predicate that every move keeps is kept by every schedule. -/
theorem Session.play_keeps {P : Session → Prop} (hmove : ∀ x σ τ, P σ → σ.move x = .next τ → P τ) (l : List Slot) :
    ∀ {σ τ : Session}, P σ → σ.play l = .next τ → P τ := by
  induction l with
  | nil => intro σ τ hσ h; cases h; exact hσ
  | cons x l ih =>
    intro σ τ hσ h
    obtain ⟨ρ, hρ⟩ := Session.move_total x σ
    rw [Session.play_cons hρ] at h
    exact ih (hmove x σ ρ hσ hρ) h

end Sys2Proof.Machine
end

