-- ==== Sys2Proof/Laws/PerInstr.lean ====
section
/-! SUPPORT. The opcode table's rows, instruction by instruction: the encoder's word carries the row's fixed bits on the row's port. -/

namespace Sys2Proof.Laws.TableRow

/-- Port, match and mask of a row of spec/opcode_table.json, the `end` bit of a `SYM_BEAT` being bit `SYMW` (30_encoding R84); a TAP row
has no fixed bits. -/
def row : Instr → Port × Nat × Nat
  | .encPut _ => (.encIn, 0x000, 0x100)
  | .encEnd => (.encIn, 0x100, 0x100)
  | .decPut _ => (.decIn, 0, 2 ^ Config.SYMW)
  | .decEnd => (.decIn, 2 ^ Config.SYMW, 2 ^ Config.SYMW)
  | .reset => (.rst, 0x1, 0x1)
  | .n2s _ => (.n2sV, 0x0, 0x0)
  | .s2n _ => (.s2nU, 0x000000, 0x000000)
  | .sym0 => (.code, 0x0, 0xF)
  | .sym1 => (.code, 0x1, 0xF)
  | .sym2 => (.code, 0x2, 0xF)
  | .sym3 => (.code, 0x3, 0xF)
  | .sym4 => (.code, 0x4, 0xF)
  | .sym5 => (.code, 0x5, 0xF)
  | .sym6 => (.code, 0x6, 0xF)
  | .sym7 => (.code, 0x7, 0xF)
  | .sym8 => (.code, 0x8, 0xF)
  | .sym9 => (.code, 0x9, 0xF)
  | .sym10 => (.code, 0xA, 0xF)
  | .sym11 => (.code, 0xB, 0xF)
  | .sym12 => (.code, 0xC, 0xF)
  | .sym13 => (.code, 0xD, 0xF)
  | .sym14 => (.code, 0xE, 0xF)
  | .sym15 => (.code, 0xF, 0xF)

/-- The encoder's word stands on the row's port and carries the row's fixed bits (30_encoding R84, R86). -/
def Statement (i : Instr) : Prop :=
  (encode i).port = (row i).1 ∧ (encode i).toNat &&& (row i).2.2 = (row i).2.1

/-- A bit that no number below `2 ^ n` has set. -/
theorem and_bit_above_zero {x n : Nat} (h : x < 2 ^ n) : x &&& 2 ^ n = 0 := by
  rw [Nat.and_two_pow, Nat.testBit_lt_two_pow h]
  simp

/-- The number on the wires of a `DATA` beat is its payload. -/
theorem toNat_data {n : Nat} (p : BitVec n) : PinBeat.toNat { isEnd := 0, payload := p } = p.toNat := by
  simp [PinBeat.toNat]

theorem encPut (b : Byte) : Statement (.encPut b) := by
  refine ⟨rfl, ?_⟩
  show PinBeat.toNat { isEnd := 0, payload := b } &&& 2 ^ 8 = 0
  rw [toNat_data]
  exact and_bit_above_zero b.isLt
theorem encEnd : Statement .encEnd := ⟨rfl, rfl⟩
theorem decPut (u : TextUnit) : Statement (.decPut u) := by
  refine ⟨rfl, ?_⟩
  show PinBeat.toNat { isEnd := 0, payload := u } &&& 2 ^ Config.SYMW = 0
  rw [toNat_data]
  exact and_bit_above_zero u.isLt
theorem decEnd : Statement .decEnd := by
  refine ⟨rfl, ?_⟩
  show PinBeat.toNat ({ isEnd := 1, payload := 0 } : PinBeat Config.SYMW) &&& 2 ^ Config.SYMW = 2 ^ Config.SYMW
  simp [PinBeat.toNat]
theorem reset : Statement .reset := ⟨rfl, rfl⟩
theorem n2s (v : Nibble) : Statement (.n2s v) := ⟨rfl, Nat.and_zero _⟩
theorem s2n (u : TextUnit) : Statement (.s2n u) := ⟨rfl, Nat.and_zero _⟩
theorem sym0 : Statement .sym0 := ⟨rfl, rfl⟩
theorem sym1 : Statement .sym1 := ⟨rfl, rfl⟩
theorem sym2 : Statement .sym2 := ⟨rfl, rfl⟩
theorem sym3 : Statement .sym3 := ⟨rfl, rfl⟩
theorem sym4 : Statement .sym4 := ⟨rfl, rfl⟩
theorem sym5 : Statement .sym5 := ⟨rfl, rfl⟩
theorem sym6 : Statement .sym6 := ⟨rfl, rfl⟩
theorem sym7 : Statement .sym7 := ⟨rfl, rfl⟩
theorem sym8 : Statement .sym8 := ⟨rfl, rfl⟩
theorem sym9 : Statement .sym9 := ⟨rfl, rfl⟩
theorem sym10 : Statement .sym10 := ⟨rfl, rfl⟩
theorem sym11 : Statement .sym11 := ⟨rfl, rfl⟩
theorem sym12 : Statement .sym12 := ⟨rfl, rfl⟩
theorem sym13 : Statement .sym13 := ⟨rfl, rfl⟩
theorem sym14 : Statement .sym14 := ⟨rfl, rfl⟩
theorem sym15 : Statement .sym15 := ⟨rfl, rfl⟩

end Sys2Proof.Laws.TableRow
end

