-- ==== Sys2Proof/Tests/Slice0.lean ====
section
/-! SUPPORT. Tests: the checks that refuse, every constructor's decoding from a word written out from 30_encoding R83, R84 and R86,
single steps and vectors of 95_test_vectors, and for every obligation with hypotheses a state that meets them. -/

namespace Sys2Proof.Tests

open Sys2Proof.Machine Sys2Proof.Machine.Codec Sys2Proof.Safety

/-! ## What is refused -/

/-- A table with a repeated entry is no configuration (R25 (a), U9). -/
theorem test_wf_repeated_entry :
    Alphabet.ofTable 21 #v[0, 1, 2, 3, 4, 5, 6, 7, 8, 9, 10, 11, 12, 13, 14, 0] = .error .repeatedEntry := by rfl

/-- `SYMW = 3` is too small (R7). -/
theorem test_wf_symw_too_small :
    Alphabet.ofTable 3 #v[0, 1, 2, 3, 4, 5, 6, 7, 0, 0, 0, 0, 0, 0, 0, 0] = .error .symwTooSmall := by rfl

/-- A word wider than its port is on no wire (R31). -/
theorem test_wf_word_too_wide :
    Input.ofNat .rst 2 = .error (.wordTooWide .rst) ∧ Input.ofNat .encIn 0x200 = .error (.wordTooWide .encIn) ∧
    Input.readAt 21 .decIn 0x400000 = .error (.wordTooWide .decIn) ∧ Input.ofNat .n2sV 16 = .error (.wordTooWide .n2sV) ∧
    Input.readAt 21 .s2nU 0x200000 = .error (.wordTooWide .s2nU) ∧ Input.ofNat .code 16 = .error (.wordTooWide .code) ∧
    Input.readAt 4 .decIn 0x20 = .error (.wordTooWide .decIn) := by
  refine ⟨rfl, rfl, rfl, rfl, rfl, rfl, rfl⟩

/-- `rst = 0` selects nothing, and no row has three bits (R84). -/
theorem test_reject_no_operation :
    decode (.rst 0) = .error .noOperation ∧ tableInput 3 0 = .error (.noSuchWidth 3) := ⟨rfl, rfl⟩

/-! ## Words written out from the spec's patterns (R83, R84, R86) -/

theorem test_decode_encPut : decode (.encIn (PinBeat.ofWord 0b010101011#9)) = .ok (.encPut 0xAB) := by decide
theorem test_decode_encEnd : decode (.encIn (PinBeat.ofWord 0b100000000#9)) = .ok .encEnd := by decide
theorem test_decode_encEnd_ignores_payload : decode (.encIn (PinBeat.ofWord 0b111111111#9)) = .ok .encEnd := by decide

/-- A `SYM_BEAT` for `SYMW = 21`: bit 21 is `end`, bits 20:0 the unit, also on an `END`. -/
theorem test_symBeat_fields :
    PinBeat.ofWord 0b0000011111011000001010#22 = { isEnd := 0, payload := 0x1F60A } ∧
    PinBeat.ofWord 0b1000000000000000000000#22 = { isEnd := 1, payload := 0 } ∧
    PinBeat.ofWord 0b1000011111011000000000#22 = { isEnd := 1, payload := 0x1F600 } := by decide

/-- The same words as the table writes them. -/
theorem test_decode_decPut : decodeTableWord 22 0b0000011111011000001010 = some (.decPut 0x1F60A) := rfl
theorem test_decode_decEnd : decodeTableWord 22 0b1000000000000000000000 = some .decEnd := rfl
theorem test_decode_decEnd_ignores_payload : decodeTableWord 22 0b1000011111011000000000 = some .decEnd := rfl
theorem test_decode_reset : decode (.rst 0b1#1) = .ok .reset := by decide
theorem test_decode_n2s : decode (.n2sV 0b1010#4) = .ok (.n2s 10) := rfl
theorem test_decode_s2n : decodeTableWord 21 0b000011111011000001011 = some (.s2n 0x1F60B) := rfl
theorem test_decode_sym0_to_sym7 :
    decode (.code 0b0000#4) = .ok .sym0 ∧ decode (.code 0b0001#4) = .ok .sym1 ∧ decode (.code 0b0010#4) = .ok .sym2 ∧
    decode (.code 0b0011#4) = .ok .sym3 ∧ decode (.code 0b0100#4) = .ok .sym4 ∧ decode (.code 0b0101#4) = .ok .sym5 ∧
    decode (.code 0b0110#4) = .ok .sym6 ∧ decode (.code 0b0111#4) = .ok .sym7 :=
  ⟨rfl, rfl, rfl, rfl, rfl, rfl, rfl, rfl⟩
theorem test_decode_sym8_to_sym15 :
    decode (.code 0b1000#4) = .ok .sym8 ∧ decode (.code 0b1001#4) = .ok .sym9 ∧ decode (.code 0b1010#4) = .ok .sym10 ∧
    decode (.code 0b1011#4) = .ok .sym11 ∧ decode (.code 0b1100#4) = .ok .sym12 ∧ decode (.code 0b1101#4) = .ok .sym13 ∧
    decode (.code 0b1110#4) = .ok .sym14 ∧ decode (.code 0b1111#4) = .ok .sym15 :=
  ⟨rfl, rfl, rfl, rfl, rfl, rfl, rfl, rfl⟩

/-- Table words of whole bytes (log 10): two rows that share a word, and words the wires do not carry. -/
theorem test_table_words :
    decodeTableWord 16 0x0F0 = some (.encPut 0xF0) ∧ decodeTableWord 24 0x200000 = some .decEnd ∧
    decodeTableWord 8 1 = some .reset ∧ decodeTableWord 8 15 = some .sym15 ∧ decodeTableWord 21 0x20 = some (.s2n 0x20) ∧
    decodeTableWord 16 0x200 = none ∧ decodeTableWord 24 0x400000 = none ∧ decodeTableWord 8 16 = none :=
  ⟨rfl, rfl, rfl, rfl, rfl, rfl, rfl, rfl⟩

/-- A placed word is the next step's operation. -/
theorem test_withFetchWord_runs :
    step (State.reset.withFetchWord 24 0x01F60A) = exec (.decPut 0x1F60A) State.reset := by rfl

/-! ## Operands and lookups (95_test_vectors 2.1, 2.2, 2.4) -/

theorem test_split : hiNibble 0xAB = 10 ∧ loNibble 0xAB = 11 ∧ hiNibble 0x80 = 8 ∧ loNibble 0x10 = 0 := by decide
theorem test_join : joinNibbles 10 11 = 0xAB ∧ joinNibbles 15 15 = 0xFF ∧ joinNibbles 0 1 = 0x01 := by decide
theorem test_n2s : n2s testAlphabet 9 = 0x01F609 ∧ n2s testAlphabet 15 = 0x01F60F := by decide
theorem test_s2n_hits : s2n testAlphabet 0x01F600 = some 0 ∧ s2n testAlphabet 0x01F60F = some 15 := by decide
theorem test_s2n_misses :
    s2n testAlphabet 0x01F5FF = none ∧ s2n testAlphabet 0x01F610 = none ∧ s2n testAlphabet 0x00F600 = none ∧
    s2n testAlphabet 0x1FFFFF = none := by decide

/-! ## Whole messages (95_test_vectors 2.2, 2.3 and the false variants) -/

/-- S1, S3 and the order rows. -/
theorem test_encode :
    encodeBytes testAlphabet [0xAB] = [0x01F60A, 0x01F60B] ∧
    encodeBytes testAlphabet [0xDE, 0xAD] = [0x01F60D, 0x01F60E, 0x01F60A, 0x01F60D] ∧
    encodeBytes testAlphabet [0x0F] = [0x01F600, 0x01F60F] ∧ encodeBytes testAlphabet [0x10] = [0x01F601, 0x01F600] := by decide

/-- S2, S3, S8, F1, F2. -/
theorem test_decode_text :
    decodeText testAlphabet [0x01F60A, 0x01F60B] = [0xAB] ∧ decodeText testAlphabet [0x01F60B, 0x01F60A] = [0xBA] ∧
    decodeText testAlphabet [0x01F60D, 0x000020, 0x01F60E, 0x000020, 0x01F60A, 0x000020, 0x01F60D] = [0xDE, 0xAD] ∧
    decodeText testAlphabet [0x01F60D, 0x01F60E, 0x01F60A] = [0xDE] := by decide

/-- Noise, near misses, a lost symbol, an inserted symbol, F6, F7. -/
theorem test_decode_damaged_text :
    decodeText testAlphabet [0x000041, 0x000042, 0x000020] = [] ∧ decodeText testAlphabet [0x01F607] = [] ∧
    decodeText testAlphabet [0x01F5FF, 0x01F600, 0x01F610, 0x01F600] = [0x00] ∧
    decodeText testAlphabet [0x01F60D, 0x01F60A, 0x01F60D] = [0xDA] ∧
    decodeText testAlphabet [0x01F60D, 0x01F600, 0x01F60E, 0x01F60A, 0x01F60D] = [0xD0, 0xEA] ∧
    decodeText testAlphabet [0x41, 0x01F60A, 0x01F60B] = [0xAB] := by decide

/-- P2 and P5 as streams: the text that was cut off leaves nothing behind. -/
theorem test_streams :
    decodeStream testAlphabet [.data 0x01F60D, .data 0x20, .data 0x01F60E, .data 0x01F60A, .endBeat, .data 0x01F60A,
      .data 0x01F60D, .endBeat] = [.data 0xDE, .endBeat, .data 0xAD, .endBeat] ∧
    heldNibble testAlphabet [0x01F60D, 0x20, 0x01F60E, 0x01F60A] = some 10 ∧
    encodeStream testAlphabet [.endBeat, .data 0xAB, .endBeat] = [.endBeat, .data 0x01F60A, .data 0x01F60B, .endBeat] := by
  decide

/-! ## Single steps -/

/-- The state after `RESET` with these register contents. -/
def withRegs (p : Phase) (h : Nibble) : State := { State.reset with block := { phase := p, hold := h } }

/-- R130 example: `ENC.PUT 0xAB` emits `A[10]`, `A[11]`, whatever the table. -/
theorem test_encPut : ∃ t, exec (.encPut 0xAB) State.reset = .next t ∧
    t.ports.encOut = [.data (Config.ALPHABET.symbol 10), .data (Config.ALPHABET.symbol 11)] := ⟨_, rfl, rfl⟩

/-- P6: `ENC.END` alone gives the empty message. -/
theorem test_encEnd : ∃ t, exec .encEnd State.reset = .next t ∧ t.ports.encOut = [.endBeat] := ⟨_, rfl, rfl⟩

/-- P2 step 1: the first symbol is held. -/
theorem test_decPut_holds : ∃ t, exec (.decPut (Config.ALPHABET.symbol 13)) State.reset = .next t ∧
    t.block = { phase := .LO, hold := 13 } ∧ t.ports.decOut = [] := by
  refine ⟨_, rfl, ?_⟩
  rw [State.takeUnit_of_HI (s2n_symbol _ 13) rfl]
  exact ⟨rfl, rfl⟩

/-- P2 step 3: the second completes the byte 0xDE. -/
theorem test_decPut_emits : ∃ t, exec (.decPut (Config.ALPHABET.symbol 14)) (withRegs .LO 13) = .next t ∧
    t.block.phase = .HI ∧ t.ports.decOut = [.data 0xDE] := by
  refine ⟨_, rfl, ?_⟩
  rw [State.takeUnit_of_LO (s2n_symbol _ 14) rfl]
  exact ⟨rfl, rfl⟩

/-- P2 step 5: the odd nibble is dropped, `DEC.hold` stays as it was (C9). -/
theorem test_decEnd : ∃ t, exec .decEnd (withRegs .LO 10) = .next t ∧
    t.block = { phase := .HI, hold := 10 } ∧ t.ports.decOut = [.endBeat] := ⟨_, rfl, rfl, rfl⟩

/-- P5 step 4: no `END`, a held nibble lost. -/
theorem test_reset : ∃ t, exec .reset (withRegs .LO 10) = .next t ∧ t.block.pending = none ∧ t.ports.decOut = [] := ⟨_, rfl, rfl, rfl⟩

theorem test_n2s_tap : ∃ t, exec (.n2s 10) State.reset = .next t ∧ t.n2sSym = Config.ALPHABET.symbol 10 := ⟨_, rfl, rfl⟩

theorem test_s2n_tap : ∃ t, exec (.s2n (Config.ALPHABET.symbol 11)) State.reset = .next t ∧ t.s2nHit = 1 ∧ t.s2nV = 11 := by
  refine ⟨_, rfl, ?_⟩
  simp [State.s2nHit, State.s2nV, s2n_symbol]

theorem test_sym15 : ∃ t, exec .sym15 State.reset = .next t ∧ t.n2sSym = Config.ALPHABET.symbol 15 ∧ t.s2nV = 15 := by
  refine ⟨_, rfl, rfl, ?_⟩
  simp [State.s2nV, n2s, romRead, s2n_symbol]

/-- An edge with `rst = 0`, and nothing presented: the block keeps its registers and emits nothing (R32, R233). -/
theorem test_idle : ∃ t, step (withRegs .LO 10) = .next t ∧ step ((withRegs .LO 10).offer (.rst 0)) = .next t ∧
    t.block = (withRegs .LO 10).block ∧ t.ports.encOut = [] ∧ t.ports.decOut = [] := ⟨_, rfl, rfl, rfl, rfl, rfl⟩

/-- R252: `ENC.PUT`, `RESET`, and the wire still carries the first symbol to DEC, as a beat of the new stream. -/
theorem test_reset_keeps_the_wire : ∃ τ, Session.start.play [.offer (encode (.encPut 0xDE)), .offer (.rst 1), .encToDec] = .next τ ∧
    τ.env.decIn = [.data (Config.ALPHABET.symbol 13)] ∧ τ.env.encTaken = 1 := ⟨_, rfl, rfl, rfl⟩

/-- R180, D20: a beat offered at an edge with `rst = 1` is not taken there; the next step takes it, with `DEC.phase = HI`. -/
theorem test_reset_keeps_the_offered_beat :
    ∃ t u, step (((withRegs .LO 10).offer (.encIn { isEnd := 0, payload := 0xAB })).offer (.rst 1)) = .next t ∧
      t.block.phase = .HI ∧ t.ports.encOut = [] ∧ t.ports.offered = some (.encIn { isEnd := 0, payload := 0xAB }) ∧
      step t = .next u ∧ u.ports.offered = none ∧
      u.ports.encOut = [.data (Config.ALPHABET.symbol 10), .data (Config.ALPHABET.symbol 11)] :=
  ⟨_, _, rfl, rfl, rfl, rfl, rfl, rfl, rfl⟩

/-! ## Witnesses: a state and operands that meet the hypotheses of each obligation -/

theorem witness_LookupsAgreeOnTheAlphabet :
    testAlphabet.symbol 15 = 0x1F60F ∧ s2n testAlphabet 0x1F60F = some 15 ∧ s2n testAlphabet 0x1F610 = none := by decide

/-- The order from index 15 down visits all 16 entries; a search in it is a method of the second kind. -/
theorem witness_SearchMethodUnobservable :
    (∀ v : Nibble, v ∈ allNibbles.reverse) ∧
    (∀ u v, s2n testAlphabet u = some v → testAlphabet.symbol v = u) ∧
    (∀ u, s2n testAlphabet u = none → ∀ v, testAlphabet.symbol v ≠ u) :=
  ⟨by decide, fun u v => (s2n_eq_some_iff _ u v).mp, fun u => (s2n_eq_none_iff _ u).mp⟩

/-- Both clauses of S2N, and all of DEC.PUT: a unit in the machine's table and one outside it (there is one at every width but 4, where the
16 symbols are all the units), in either phase. -/
theorem witness_DecPut_and_S2n :
    Config.ALPHABET.symbol 0 = Config.ALPHABET.symbol 0 ∧ Config.ALPHABET.symbol 15 = Config.ALPHABET.symbol 15 ∧
    (4 < Config.SYMW → ∃ u : TextUnit, ∀ v, Config.ALPHABET.symbol v ≠ u) ∧ (∀ v, testAlphabet.symbol v ≠ 0x20) ∧
    (withRegs .HI 0).block.phase = .HI ∧ (withRegs .LO 15).block.phase = .LO :=
  ⟨rfl, rfl, exists_unrecognised _, by decide, rfl, rfl⟩

/-- A word with `end = 1` at each width: the lowest and the highest. -/
theorem witness_EndWords : 2 ^ 8 ≤ (0x100#9).toNat ∧ 2 ^ 8 ≤ (0x1FF#9).toNat ∧
    ∃ x : BitVec (Config.SYMW + 1), 2 ^ Config.SYMW ≤ x.toNat :=
  ⟨by decide, by decide, (Beat.endBeat : Beat TextUnit).toPins.toWord, by simp [Beat.toPins, PinBeat.toNat]⟩

theorem witness_CodeTableRows :
    (Instr.sym0, (0 : Nibble)) ∈ [(Instr.sym0, (0 : Nibble)), (.sym15, 15)] ∧ exec .sym0 State.reset = .next (State.reset.beginStep.showRow 0) ∧
    exec .sym15 State.reset = .next (State.reset.beginStep.showRow 15) := ⟨by simp, rfl, rfl⟩

theorem witness_DecoderTransitionTable :
    (withRegs .HI 9).block.pending = none ∧ (withRegs .LO 15).block.pending = some 15 ∧
    s2n Config.ALPHABET (Config.ALPHABET.symbol 15) = some 15 ∧
    (4 < Config.SYMW → ∃ u : TextUnit, s2n Config.ALPHABET u = none) :=
  ⟨rfl, rfl, s2n_symbol _ _, fun h => (exists_unrecognised Config.ALPHABET h).imp fun _ => (s2n_eq_none_iff _ _).mpr⟩

theorem witness_EncOpsFrame : isEncOp (.encPut 0xAB) = true ∧ (∃ t, exec (.encPut 0xAB) State.reset = .next t) ∧
    (∃ τ, Session.start.perform (.encPut 0xAB) = .next τ) ∧
    isEncOp .encEnd = true ∧ (∃ t, exec .encEnd State.reset = .next t) ∧ ∃ τ, Session.start.perform .encEnd = .next τ :=
  ⟨rfl, ⟨_, rfl⟩, ⟨_, rfl⟩, rfl, ⟨_, rfl⟩, ⟨_, rfl⟩⟩

/-- Also the inner hypothesis: `DEC.hold` changes from 0 to 13 in phase `HI`. -/
theorem witness_DecOpsFrame : isDecOp (.decPut (Config.ALPHABET.symbol 13)) = true ∧ isDecOp .decEnd = true ∧
    (∃ τ, Session.start.perform .decEnd = .next τ) ∧
    ∃ t, exec (.decPut (Config.ALPHABET.symbol 13)) State.reset = .next t ∧ t.block.hold ≠ State.reset.block.hold := by
  refine ⟨rfl, rfl, ⟨_, rfl⟩, _, rfl, ?_⟩
  rw [State.takeUnit_of_HI (s2n_symbol _ 13) rfl]
  decide

theorem witness_TapOpsFrame : isTapOp (.n2s 3) = true ∧ isTapOp (.s2n 3) = true ∧ isTapOp .sym15 = true ∧
    (∃ t, exec (.n2s 3) State.reset = .next t) ∧ (∃ t, exec (.s2n 3) State.reset = .next t) ∧
    (∃ t, exec .sym15 State.reset = .next t) ∧ ∃ τ, Session.start.perform .sym15 = .next τ :=
  ⟨rfl, rfl, rfl, ⟨_, rfl⟩, ⟨_, rfl⟩, ⟨_, rfl⟩, ⟨_, rfl⟩⟩

/-- Also a beat that waits on each wire. -/
theorem witness_ResetFrame : (∃ t, exec .reset (withRegs .LO 10) = .next t) ∧ (∃ τ, Session.start.perform .reset = .next τ) ∧
    ({ Env.initial with encSent := [.endBeat] } : Env).encSent[0]? = some .endBeat ∧
    ({ Env.initial with decSent := [.data 0xAB] } : Env).decSent[0]? = some (.data 0xAB) := ⟨⟨_, rfl⟩, ⟨_, rfl⟩, rfl, rfl⟩

theorem witness_BeatWords : 2 ^ 8 ≤ (0x100#9).toNat ∧ (0x0FF#9).toNat < 2 ^ 8 := by decide

/-- Each clause of the step: an input, an idle edge, none; and each wire with `DATA`, with `END` and with nothing. -/
theorem witness_StepRuns :
    (State.reset.offer (.encIn { isEnd := 0, payload := 0xAB })).ports.offered = some (.encIn { isEnd := 0, payload := 0xAB }) ∧
    decode (.encIn { isEnd := 0, payload := 0xAB }) = .ok (.encPut 0xAB) ∧ decode (.rst 0) = .error .noOperation ∧
    (State.reset.offer (.encIn { isEnd := 0, payload := 0xAB })).presented = some (.encIn { isEnd := 0, payload := 0xAB }) ∧
    (State.reset.offer (.rst 1)).ports.rst = some 1 ∧ State.reset.ports.rst = none ∧ State.reset.presented = none ∧
    (Session.start.drive (.rst 1)).machine.presented = some (.rst 1) ∧
    ({ Env.initial with encSent := [.data 0] } : Env).encSent[0]? = some (.data 0) ∧
    ({ Env.initial with encSent := [.endBeat] } : Env).encSent[0]? = some .endBeat ∧ Env.initial.encSent[0]? = none ∧
    ({ Env.initial with decSent := [.data 0xAB] } : Env).decSent[0]? = some (.data 0xAB) ∧
    ({ Env.initial with decSent := [.endBeat] } : Env).decSent[0]? = some .endBeat ∧ Env.initial.decSent[0]? = none :=
  ⟨rfl, rfl, rfl, rfl, rfl, rfl, rfl, rfl, rfl, rfl, rfl, rfl, rfl, rfl⟩

/-- A beat of either port, `DATA` and `END`, offered at one edge and at two edges with `rst = 1`. -/
theorem witness_ResetLeavesTheOfferedBeat :
    (∃ b, (Input.encIn { isEnd := 0, payload := 0xAB }) = .encIn b) ∧ (∃ b, (Input.decIn { isEnd := 1, payload := 0 }) = .decIn b) ∧
    (∃ τ, Session.start.play (.drive (.encIn { isEnd := 0, payload := 0xAB }) :: List.replicate (0 + 1) (.offer (.rst 1))) = .next τ ∧
      τ.machine.ports.offered = some (.encIn { isEnd := 0, payload := 0xAB })) ∧
    ∃ τ, Session.start.play (.drive (.decIn { isEnd := 1, payload := 0 }) :: List.replicate (1 + 1) (.offer (.rst 1))) = .next τ ∧
      τ.machine.ports.offered = some (.decIn { isEnd := 1, payload := 0 }) :=
  ⟨⟨_, rfl⟩, ⟨_, rfl⟩, ⟨_, rfl, rfl⟩, ⟨_, rfl, rfl⟩⟩

/-- Two states with other ports and the same registers. -/
theorem witness_AnOperationReadsOnlyTheRegisters :
    (State.reset.driveN2s 3).block = State.reset.block ∧ State.reset.driveN2s 3 ≠ State.reset :=
  ⟨rfl, fun h => absurd (congrArg (fun s => s.ports.n2sV) h) (by decide)⟩

/-- A session after one message on each unit, with a beat of `enc_out` for the wire: all four invariants hold, and a step with an input, a
move and a schedule answer. -/
theorem witness_StepKeepsTheInvariants : ∃ σ τ : Session,
    EncStreamInv σ ∧ DecStreamInv σ ∧ WireInv σ ∧ SentInv σ ∧ σ.move .encToDec = .next τ ∧ τ.env.decIn = [.endBeat, .endBeat] ∧
    σ.play [.encToDec] = .next τ ∧ σ.machine.presented = some (.decIn { isEnd := 1, payload := 1 }) ∧ ∃ t, step σ.machine = .next t :=
  ⟨{ machine := State.reset.offer (.decIn { isEnd := 1, payload := 1 }),
     env := { Env.initial with
       encIn := [.endBeat], encOut := [.endBeat], encSent := [.endBeat]
       decIn := [.endBeat], decOut := [.endBeat], decSent := [.endBeat] } }, _, rfl, ⟨rfl, rfl⟩, ⟨by decide, by decide⟩,
    ⟨List.suffix_refl _, List.suffix_refl _⟩, rfl, rfl, rfl, rfl, _, rfl⟩

theorem witness_ClosedText : ∃ σ : Session, Session.start.perform .decEnd = .next σ ∧ DecStreamInv σ ∧ (messages σ.env.decIn).2 = [] :=
  ⟨_, rfl, ⟨rfl, rfl⟩, rfl⟩

theorem witness_EncodePositions : [(0xDE : Byte), 0xAD][0]? = some 0xDE ∧ [(0xDE : Byte), 0xAD][1]? = some 0xAD := by decide

theorem witness_EncodeOfDecode : wellFormedText testAlphabet [0x1F60D, 0x1F60E] = true ∧ wellFormedText testAlphabet [] = true := by
  decide

theorem witness_UnrecognisedUnits :
    recNibbles testAlphabet [0x20, 0x1F60D] = recNibbles testAlphabet [0x1F60D] ∧
    [0x1F60D, 0x20, 0x1F60E].filter (isRecognised testAlphabet) = [0x1F60D, 0x1F60E].filter (isRecognised testAlphabet) ∧
    [0x1F60D, 0x20, 0x1F60E].filter (isRecognised testAlphabet) = encodeBytes testAlphabet [0xDE] := by decide

/-- With k = 0 and with k = 1; the last recognised unit is followed by noise. -/
theorem witness_OddTail :
    countRecognized testAlphabet [0x1F607] = 2 * 0 + 1 ∧
    countRecognized testAlphabet [0x1F60D, 0x1F60E, 0x1F60A, 0x20] = 2 * 1 + 1 ∧
    [0x1F60D, 0x1F60E, 0x1F60A, 0x20] = [0x1F60D, 0x1F60E] ++ (0x1F60A : BitVec 21) :: [0x20] ∧
    isRecognised testAlphabet 0x1F60A = true ∧ ∀ x ∈ [(0x20 : BitVec 21)], isRecognised testAlphabet x = false :=
  ⟨by decide, by decide, rfl, by decide, by simp only [List.mem_singleton, forall_eq]; decide⟩

theorem witness_EmptyInput : countRecognized testAlphabet [0x41] ≤ 1 ∧ countRecognized testAlphabet [0x1F607] ≤ 1 := by decide

theorem witness_Concatenation : countRecognized testAlphabet [0x1F60D, 0x20, 0x1F60E] % 2 = 0 := by decide

theorem witness_EverySymbolPair :
    decodeText testAlphabet [testAlphabet.symbol 15, testAlphabet.symbol 0] =
      decodeText testAlphabet [testAlphabet.symbol 15, testAlphabet.symbol 0] := rfl

/-- The test table is accepted, so a distinct table of 21 bits and an alphabet exist; a repeat and a width 3 are refused above. -/
theorem witness_OnlyDistinctTables :
    (∃ t : Vector (BitVec 4) 16, TableDistinct t) ∧ Nonempty (Alphabet 21) ∧
    (∃ t : Vector (BitVec 21) 16, ∃ i j : Nibble, i ≠ j ∧ t[i.toNat] = t[j.toNat]) :=
  ⟨⟨#v[0, 1, 2, 3, 4, 5, 6, 7, 8, 9, 10, 11, 12, 13, 14, 15], by decide⟩, ⟨testAlphabet⟩,
    ⟨#v[0, 1, 2, 3, 4, 5, 6, 7, 8, 9, 10, 11, 12, 13, 14, 0], 0, 15, by decide, by decide⟩⟩

theorem witness_SameTable : ∀ v, testAlphabet.symbol v = testAlphabet.symbol v := fun _ => rfl

theorem witness_messages_from_HI : Session.start.machine.block.phase = .HI ∧ Session.start.machine.block.pending = none ∧
    (withRegs .HI 7).block.pending = none := ⟨rfl, rfl, rfl⟩

/-- An odd text of the machine's own table, whatever it is. -/
theorem witness_odd_text :
    countRecognized Config.ALPHABET [Config.ALPHABET.symbol 1] % 2 = 1 ∧
    (recNibbles Config.ALPHABET [Config.ALPHABET.symbol 1]).getLast? = some 1 ∧
    countRecognized Config.ALPHABET [] % 2 = 0 := by
  simp [countRecognized, recNibbles, s2n_symbol]

/-- Two messages and an unfinished one; the second starts before the first is carried; an `END` has payload bits; and, where the alphabet
leaves a unit over, the wire puts in an unrecognised one. -/
theorem witness_LoopBack : ∃ l : List Slot,
    Session.start.machine.block.phase = .HI ∧ Session.start.env.encTaken = Session.start.env.encSent.length ∧
    l.filterMap Slot.encBeat = streamOf ([[0xDE], []], [0x12]) ∧
    (∀ x ∈ l, (∃ b, x = .offer (.encIn b)) ∨ x = .encToDec ∨
      ∃ b, x = .offer (.decIn b) ∧ b.isEnd = 0 ∧ isRecognised Config.ALPHABET b.payload = false) ∧
    (4 < Config.SYMW → ∃ b : PinBeat Config.SYMW, b.isEnd = 0 ∧ isRecognised Config.ALPHABET b.payload = false) := by
  refine ⟨[.encToDec, .offer (.encIn { isEnd := 0, payload := 0xDE }), .encToDec, .offer (.encIn { isEnd := 1, payload := 0xFF }),
    .offer (.encIn { isEnd := 1, payload := 0 }), .encToDec, .offer (.encIn { isEnd := 0, payload := 0x12 })], rfl, rfl, rfl, ?_, ?_⟩
  · intro x hx
    simp only [List.mem_cons, List.not_mem_nil, or_false] at hx
    rcases hx with rfl | rfl | rfl | rfl | rfl | rfl | rfl
    · exact .inr (.inl rfl)
    · exact .inl ⟨_, rfl⟩
    · exact .inr (.inl rfl)
    · exact .inl ⟨_, rfl⟩
    · exact .inl ⟨_, rfl⟩
    · exact .inr (.inl rfl)
    · exact .inl ⟨_, rfl⟩
  · intro hw
    obtain ⟨u, hu⟩ := exists_unrecognised Config.ALPHABET hw
    exact ⟨{ isEnd := 0, payload := u }, rfl, by simp [isRecognised, (s2n_eq_none_iff _ u).mpr hu]⟩

/-- P3's two orders of ENC and DEC operations, with a `RESET` in common and a lookup in one of them. -/
theorem witness_Interleaving :
    [Instr.reset, .encPut 0xDE, .decPut 1, .encEnd, .decEnd].filter (fun i => isEncOp i || isResetOp i) =
      [Instr.reset, .decPut 1, .n2s 3, .decEnd, .encPut 0xDE, .encEnd].filter (fun i => isEncOp i || isResetOp i) ∧
    [Instr.reset, .encPut 0xDE, .decPut 1, .encEnd, .decEnd].filter (fun i => isDecOp i || isResetOp i) =
      [Instr.reset, .decPut 1, .n2s 3, .decEnd, .encPut 0xDE, .encEnd].filter (fun i => isDecOp i || isResetOp i) := ⟨rfl, rfl⟩

theorem witness_UnitsCommute : isEncOp (.encPut 0) = true ∧ isDecOp (.decPut 0) = true ∧ isEncOp .encEnd = true ∧
    isDecOp .decEnd = true := ⟨rfl, rfl, rfl, rfl⟩

/-- Two states that differ in `DEC.hold` alone. -/
theorem witness_SameView : SameView (withRegs .HI 0) (withRegs .HI 15) ∧ withRegs .HI 0 ≠ withRegs .HI 15 :=
  ⟨⟨rfl, rfl⟩, fun h => absurd (congrArg (fun s => s.block.hold) h) (by decide)⟩

theorem witness_OnlyDecPut : (∀ u, Instr.encEnd ≠ .decPut u) ∧ (∀ u, Instr.decEnd ≠ .decPut u) ∧
    (isEncOp .encEnd || isTapOp .encEnd) = true := ⟨nofun, nofun, rfl⟩

theorem witness_NothingIsCarried : ∀ i ∈ [Instr.decPut 1, .decEnd], isDecOp i = true := by
  intro i hi
  simp only [List.mem_cons, List.not_mem_nil, or_false] at hi
  rcases hi with rfl | rfl <;> rfl

/-- A high symbol (k = 2) and a low one (k = 3) of the middle byte, with a byte on either side; the first symbol of all (k = 0) and the last
(k = 5). -/
theorem witness_LostSymbol :
    0 < 2 * [(0xDE : Byte), 0xAD, 0x12].length ∧ 5 < 2 * [(0xDE : Byte), 0xAD, 0x12].length ∧
    [(0xDE : Byte), 0xAD, 0x12][2 / 2]? = some 0xAD ∧ [(0xDE : Byte), 0xAD, 0x12][2 / 2 + 1]? = some 0x12 ∧
    [(0xDE : Byte), 0xAD, 0x12][3 / 2]? = some 0xAD ∧ 0 / 2 < 1 ∧ isRecognised testAlphabet 0x3F = false := by decide

/-- 0xDE 0xAD with its symbol 1 lost (95_test_vectors: a lost symbol), and, by hand, with its symbol 0 lost: E A D pairs to EA. -/
theorem test_lost_symbol :
    decodeText testAlphabet ((encodeBytes testAlphabet [0xDE, 0xAD]).eraseIdx 1) = [0xDA] ∧
    decodeText testAlphabet ((encodeBytes testAlphabet [0xDE, 0xAD]).eraseIdx 0) = [0xEA] := by decide

/-- The high symbol of the middle byte changed to another, and the low one. -/
theorem witness_ChangedSymbol :
    [(0xDE : Byte), 0xAD, 0x12][2 / 2]? = some 0xAD ∧ [(0xDE : Byte), 0xAD, 0x12][3 / 2]? = some 0xAD ∧
    (encodeBytes testAlphabet [0xDE, 0xAD, 0x12])[2]? ≠ some (testAlphabet.symbol 11) ∧
    (encodeBytes testAlphabet [0xDE, 0xAD, 0x12])[3]? ≠ some (testAlphabet.symbol 12) ∧ (0 : Nat) ≠ 2 / 2 := by decide

end Sys2Proof.Tests
end

section
/-! What an operation does to the registers and emits, as functions of its operand and of the registers (10_state R34), and the one
equation that ties them to `exec` (`exec_eq_after`) and to a session (`Session.perform_eq_after`). -/

namespace Sys2Proof.Machine

/-! ## The functions -/

/-- The beats an operation emits on `enc_out` (41_encoder R130, R131). -/
def encBeats : Instr → List (Beat TextUnit)
  | .encPut b => [.data (n2s Config.ALPHABET (hiNibble b)), .data (n2s Config.ALPHABET (loNibble b))]
  | .encEnd => [.endBeat]
  | _ => []

/-- The beats an operation emits on `dec_out`, `p` being the pending nibble (42_decoder R150, R151, R156). -/
def decBeats (p : Option Nibble) : Instr → List (Beat Byte)
  | .decPut u =>
    match p, s2n Config.ALPHABET u with
    | some h, some v => [.data (joinNibbles h v)]
    | _, _ => []
  | .decEnd => [.endBeat]
  | _ => []

/-- The registers after a unit (42_decoder R150). -/
def Block.afterUnit (u : TextUnit) (b : Block) : Block :=
  match s2n Config.ALPHABET u, b.phase with
  | none, _ => b
  | some v, .HI => { phase := .LO, hold := v }
  | some _, .LO => { b with phase := .HI }

/-- The registers after an operation (10_state R20 to R23). -/
def Block.after (i : Instr) (b : Block) : Block :=
  match i with
  | .decPut u => b.afterUnit u
  | .decEnd => { b with phase := .HI }
  | .reset => { b with phase := .HI }
  | _ => b

/-- The pending nibble after an operation (10_state R22, 42_decoder R156). -/
def pendingAfter (p : Option Nibble) : Instr → Option Nibble
  | .decPut u =>
    match s2n Config.ALPHABET u, p with
    | none, _ => p
    | some v, none => some v
    | some _, some _ => none
  | .decEnd => none
  | .reset => none
  | _ => p

/-- The level at the tap `n2s_v` after an input (10_state R31; log 19). -/
def n2sVAfter (old : Nibble) : Input → Nibble
  | .n2sV v => v
  | .code v => v
  | _ => old

/-- The level at the tap `s2n_u` after an input (10_state R31; log 19). -/
def s2nUAfter (old : TextUnit) : Input → TextUnit
  | .s2nU u => u
  | .code v => n2s Config.ALPHABET v
  | _ => old

/-- The ports after an operation, `p` being the pending nibble. -/
def Ports.after (i : Instr) (p : Option Nibble) (q : Ports) : Ports :=
  { q with
    encOut := encBeats i
    decOut := decBeats p i
    n2sV := n2sVAfter q.n2sV (encode i)
    s2nU := s2nUAfter q.s2nU (encode i)
    sample := q.sample + 1 }

/-- The state after an operation. -/
def State.after (i : Instr) (s : State) : State :=
  { block := s.block.after i, ports := s.ports.after i s.block.pending }

/-- The session after an operation is presented. -/
def Session.after (i : Instr) (σ : Session) : Session :=
  σ.record (encode i) ((σ.machine.offer (encode i)).take.after i)

/-! ## They are what the block does -/

/-- A unit acts on the registers and on `dec_out` as the functions say (42_decoder R150). -/
theorem State.takeUnit_eq_after (u : TextUnit) (s : State) : s.beginStep.takeUnit u = s.after (.decPut u) := by
  have hports (p : Option Nibble) : s.ports.after (.decPut u) p =
      { s.beginStep.ports with decOut := decBeats p (.decPut u) } := rfl
  rw [State.after, hports]
  cases hu : s2n Config.ALPHABET u with
  | none => simp [State.takeUnit_of_miss hu, State.beginStep, Block.after, Block.afterUnit, decBeats, hu]
  | some v =>
    cases hp : s.block.phase with
    | HI =>
      rw [State.takeUnit_of_HI hu (s.beginStep_block ▸ hp), Block.pending_of_HI hp]
      simp [State.setHold, State.setPhase, State.beginStep, Block.after, Block.afterUnit, decBeats, hu, hp]
    | LO =>
      rw [State.takeUnit_of_LO hu (s.beginStep_block ▸ hp), Block.pending_of_LO hp]
      simp [State.emitDec, State.setPhase, State.beginStep, Block.after, Block.afterUnit, decBeats, hu, hp]

/-- Every operation, in one equation (30_encoding R84; 10_state R34). -/
theorem exec_eq_after (i : Instr) (s : State) : exec i s = .next (s.after i) := by
  cases i with
  | decPut u => exact congrArg Host.Outcome.next (s.takeUnit_eq_after u)
  | _ => rfl

theorem Session.perform_eq_after (i : Instr) (σ : Session) : σ.perform i = .next (σ.after i) :=
  Session.present_of_step ((step_offer (decode_encode i) _).trans (exec_eq_after i _))

/-- `pendingAfter` is what becomes of the registers' one readable value (10_state R22). -/
theorem Block.pending_after (i : Instr) (b : Block) : (b.after i).pending = pendingAfter b.pending i := by
  cases i with
  | decPut u =>
    cases hu : s2n Config.ALPHABET u <;> cases hp : b.phase <;>
      simp [Block.after, Block.afterUnit, pendingAfter, Block.pending, hu, hp]
  | _ => rfl

end Sys2Proof.Machine
end

section
/-! The fields of a state and of a session after an operation. -/

namespace Sys2Proof.Machine

section
variable (i : Instr) (s : State)
@[simp] theorem State.after_block : (s.after i).block = s.block.after i := rfl
@[simp] theorem State.after_rst : (s.after i).ports.rst = s.ports.rst := rfl
@[simp] theorem State.after_offered : (s.after i).ports.offered = s.ports.offered := rfl
@[simp] theorem State.after_encOut : (s.after i).ports.encOut = encBeats i := rfl
@[simp] theorem State.after_decOut : (s.after i).ports.decOut = decBeats s.block.pending i := rfl
@[simp] theorem State.after_n2sV : (s.after i).ports.n2sV = n2sVAfter s.ports.n2sV (encode i) := rfl
@[simp] theorem State.after_s2nU : (s.after i).ports.s2nU = s2nUAfter s.ports.s2nU (encode i) := rfl
end

/-- Taking an input never touches what was emitted and what the wires have carried (43_system R180, 70_reset R252). -/
@[simp] theorem Env.accept_keeps (x : Input) (e : Env) :
    (e.accept x).encSent = e.encSent ∧ (e.accept x).decSent = e.decSent ∧
      (e.accept x).encTaken = e.encTaken ∧ (e.accept x).decTaken = e.decTaken := by
  cases x with
  | rst level =>
    rw [Env.accept]
    split <;> exact ⟨rfl, rfl, rfl, rfl⟩
  | _ => exact ⟨rfl, rfl, rfl, rfl⟩

section
variable (i : Instr) (σ : Session)
@[simp] theorem Session.after_block : (σ.after i).machine.block = σ.machine.block.after i := rfl
@[simp] theorem Session.after_encIn : (σ.after i).env.encIn = (σ.env.accept (encode i)).encIn := rfl
@[simp] theorem Session.after_decIn : (σ.after i).env.decIn = (σ.env.accept (encode i)).decIn := rfl
@[simp] theorem Session.after_encOut :
    (σ.after i).env.encOut = (σ.env.accept (encode i)).encOut ++ encBeats i := rfl
@[simp] theorem Session.after_decOut :
    (σ.after i).env.decOut = (σ.env.accept (encode i)).decOut ++ decBeats σ.machine.block.pending i := rfl
@[simp] theorem Session.after_encSent : (σ.after i).env.encSent = σ.env.encSent ++ encBeats i := by
  simp [Session.after]
@[simp] theorem Session.after_decSent :
    (σ.after i).env.decSent = σ.env.decSent ++ decBeats σ.machine.block.pending i := by
  simp [Session.after]
@[simp] theorem Session.after_encTaken : (σ.after i).env.encTaken = σ.env.encTaken := by simp [Session.after]
@[simp] theorem Session.after_decTaken : (σ.after i).env.decTaken = σ.env.decTaken := by simp [Session.after]
end

/-- A list of operations is its first and then the rest. -/
theorem Session.performAll_cons (i : Instr) (l : List Instr) (σ : Session) :
    σ.performAll (i :: l) = (σ.after i).performAll l :=
  Session.play_cons (x := .offer (encode i)) (σ.perform_eq_after i) _

end Sys2Proof.Machine
end

section
/-! The operations of each unit: what the other unit, the taps and the streams have of them (20_memory R60, R61). -/

namespace Sys2Proof.Machine

theorem isEncOp_iff (i : Instr) : isEncOp i = true ↔ (∃ b, i = .encPut b) ∨ i = .encEnd := by
  cases i <;> simp [isEncOp, placeOf]

theorem isDecOp_iff (i : Instr) : isDecOp i = true ↔ (∃ u, i = .decPut u) ∨ i = .decEnd := by
  cases i <;> simp [isDecOp, placeOf]

section
variable {i : Instr} (h : isEncOp i = true)
include h

/-- ENC has no register (10_state R23). -/
theorem Block.after_of_encOp (b : Block) : b.after i = b := by
  obtain ⟨b, rfl⟩ | rfl := (isEncOp_iff i).mp h <;> rfl

theorem decBeats_of_encOp (p : Option Nibble) : decBeats p i = [] := by
  obtain ⟨b, rfl⟩ | rfl := (isEncOp_iff i).mp h <;> rfl

/-- Its pins are a beat on `enc_in` (30_encoding R84). -/
theorem encode_of_encOp : ∃ b, encode i = .encIn b := by
  obtain ⟨b, rfl⟩ | rfl := (isEncOp_iff i).mp h <;> exact ⟨_, rfl⟩

end

section
variable {i : Instr} (h : isDecOp i = true)
include h

theorem encBeats_of_decOp : encBeats i = [] := by
  obtain ⟨u, rfl⟩ | rfl := (isDecOp_iff i).mp h <;> rfl

/-- Its pins are a beat on `dec_in` (30_encoding R84). -/
theorem encode_of_decOp : ∃ b, encode i = .decIn b := by
  obtain ⟨u, rfl⟩ | rfl := (isDecOp_iff i).mp h <;> exact ⟨_, rfl⟩

end

/-- At most one beat leaves on `dec_out` in a step (42_decoder R150, R151). -/
theorem decBeats_length_le (p : Option Nibble) (i : Instr) : (decBeats p i).length ≤ 1 := by
  cases i with
  | decPut u => cases hu : s2n Config.ALPHABET u <;> cases p <;> simp [decBeats, hu]
  | _ => simp [decBeats]

/-- An unrecognised unit changes no register (42_decoder R150). -/
theorem Block.after_decPut_of_miss {u : TextUnit} (h : s2n Config.ALPHABET u = none) (b : Block) :
    b.after (.decPut u) = b := by
  simp [Block.after, Block.afterUnit, h]

/-- `DEC.hold` is written in phase `HI` alone, by a symbol, with its nibble (10_state R22, 42_decoder R150). -/
theorem Block.hold_after_ne {i : Instr} {b : Block} (h : (b.after i).hold ≠ b.hold) :
    b.phase = .HI ∧ ∃ v, i = .decPut (Config.ALPHABET.symbol v) ∧ (b.after i).hold = v := by
  cases i with
  | decPut u =>
    cases hu : s2n Config.ALPHABET u with
    | none => exact absurd (by rw [Block.after_decPut_of_miss hu]) h
    | some v =>
      obtain rfl := (s2n_eq_some_iff _ _ _).mp hu
      cases hp : b.phase with
      | HI => exact ⟨rfl, v, rfl, by simp [Block.after, Block.afterUnit, hu, hp]⟩
      | LO => exact absurd (by simp [Block.after, Block.afterUnit, hu, hp]) h
  | _ => exact absurd rfl h

/-- A beat on `enc_in` selects an operation of ENC (30_encoding R84). -/
theorem decode_encIn_isEncOp (b : PinBeat 8) : ∃ i, decode (.encIn b) = .ok i ∧ isEncOp i = true := by
  refine ⟨_, decode_encIn b, ?_⟩
  cases Beat.ofPins b <;> rfl

/-- A beat on `dec_in` selects an operation of DEC (30_encoding R84). -/
theorem decode_decIn_isDecOp (b : PinBeat Config.SYMW) : ∃ i, decode (.decIn b) = .ok i ∧ isDecOp i = true := by
  refine ⟨_, decode_decIn b, ?_⟩
  cases Beat.ofPins b <;> rfl

/-- Settles O13: an operation of ENC is a beat on `enc_in`, which moves neither a register nor `dec_out`. -/
theorem encOpsFrame : Obligations.EncOpsFrame := by
  intro i hi
  obtain ⟨b, hb⟩ := encode_of_encOp hi
  refine ⟨fun s t h => ?_, fun σ τ h => ?_⟩
  · obtain rfl := exec_next_unique (exec_eq_after i s) h
    simp [Block.after_of_encOp hi, decBeats_of_encOp hi, hb, n2sVAfter, s2nUAfter]
  · obtain rfl := Host.Outcome.next.inj ((σ.perform_eq_after i).symm.trans h)
    simp [Block.after_of_encOp hi, decBeats_of_encOp hi, hb]

/-- Settles O14: an operation of DEC is a beat on `dec_in`, which emits nothing on `enc_out`. -/
theorem decOpsFrame : Obligations.DecOpsFrame := by
  intro i hi
  obtain ⟨b, hb⟩ := encode_of_decOp hi
  refine ⟨fun s t h => ?_, fun σ τ h => ?_⟩
  · obtain rfl := exec_next_unique (exec_eq_after i s) h
    have hmiss : ∀ u, i = .decPut u → (∀ v, Config.ALPHABET.symbol v ≠ u) → s.block.after i = s.block := by
      rintro u rfl hu
      exact Block.after_decPut_of_miss ((s2n_eq_none_iff _ u).mpr hu) s.block
    exact ⟨rfl, rfl, encBeats_of_decOp hi, by simp [hb, n2sVAfter], by simp [hb, s2nUAfter], decBeats_length_le _ i,
      Block.hold_after_ne, hmiss⟩
  · obtain rfl := Host.Outcome.next.inj ((σ.perform_eq_after i).symm.trans h)
    simp [encBeats_of_decOp hi, hb]

/-- Settles O23: the beat selects an operation of its own unit, so the other unit's streams stay. -/
theorem beatsAreAppendedToTheStreams : Obligations.BeatsAreAppendedToTheStreams := by
  intro σ
  refine ⟨fun b => ?_, fun b => ?_⟩
  · obtain ⟨i, hdec, hi⟩ := decode_encIn_isEncOp b
    have hstep := (step_offer hdec σ.machine).trans (exec_eq_after i _)
    exact ⟨_, _, hstep, Session.present_of_step hstep, rfl, by simp [decBeats_of_encOp hi]⟩
  · obtain ⟨i, hdec, hi⟩ := decode_decIn_isDecOp b
    have hstep := (step_offer hdec σ.machine).trans (exec_eq_after i _)
    exact ⟨_, _, hstep, Session.present_of_step hstep, rfl, by simp [encBeats_of_decOp hi]⟩

end Sys2Proof.Machine
end

section
/-! What can be read of the registers: operations and steps depend on the pending nibble alone (10_state R22, R30, R34). -/

namespace Sys2Proof.Machine

open Sys2Proof.Safety

/-- Settles O24, by the equation of `exec`. -/
theorem anOperationReadsOnlyTheRegisters : Obligations.AnOperationReadsOnlyTheRegisters := by
  intro i s s'
  refine ⟨_, _, exec_eq_after i s, exec_eq_after i s', rfl, fun hblock => ?_⟩
  simp [hblock]

/-- An operation goes from states of one view to states of one view. -/
theorem State.after_sameView (i : Instr) {s s' : State} (h : SameView s s') : SameView (s.after i) (s'.after i) := by
  obtain ⟨hports, hpending⟩ := h
  exact ⟨by rw [State.after, State.after, hports, hpending],
    by rw [State.after_block, State.after_block, Block.pending_after, Block.pending_after, hpending]⟩

/-- The operation that the coming edge carries out, if any (30_encoding R84). -/
def State.operation (s : State) : Option Instr := s.presented.bind fun x => (decode x).toOption

/-- A step is its operation, or only begins and ends (00_scope R13; log 11). -/
theorem step_eq_operation (s : State) :
    step s = .next (s.operation.elim s.take.beginStep s.take.after) := by
  rcases step_cases s with ⟨x, i, hx, hi, h⟩ | ⟨x, r, hx, hr, h⟩ | ⟨hx, h⟩
  · simpa [State.operation, hx, hi, Except.toOption, exec_eq_after] using h
  · simpa [State.operation, hx, hr, Except.toOption] using h
  · simpa [State.operation, hx] using h

/-- Settles O54: what is presented and what an operation makes of it are the same for both states. -/
theorem holdIsUnreadableInPhaseHI : Obligations.HoldIsUnreadableInPhaseHI := by
  refine ⟨fun i s s' h => ⟨_, _, exec_eq_after i s, exec_eq_after i s', State.after_sameView i h⟩, fun s s' h => ?_⟩
  refine ⟨_, _, step_eq_operation s, step_eq_operation s', ?_⟩
  obtain ⟨hports, hpending⟩ := h
  have htake : SameView s.take s'.take := ⟨by rw [State.take, State.take, hports], hpending⟩
  have hop : s.operation = s'.operation := by rw [State.operation, State.operation, State.presented, State.presented, hports]
  rw [hop]
  cases s'.operation with
  | none => exact ⟨by simp [State.beginStep, htake.1], hpending⟩
  | some i => exact State.after_sameView i htake

/-- From two sessions with the same pending nibble the same operations emit the same beats on `dec_out` and end with the same
pending nibble. -/
theorem Session.performAll_of_pending_eq (ops : List Instr) : ∀ {σ σ' : Session},
    σ.machine.block.pending = σ'.machine.block.pending →
    ∃ τ τ' e, σ.performAll ops = .next τ ∧ σ'.performAll ops = .next τ' ∧
      τ.env.decSent = σ.env.decSent ++ e ∧ τ'.env.decSent = σ'.env.decSent ++ e ∧
      τ.machine.block.pending = τ'.machine.block.pending := by
  induction ops with
  | nil => exact fun h => ⟨_, _, [], rfl, rfl, by simp, by simp, h⟩
  | cons i ops ih =>
    intro σ σ' h
    have hi : (σ.after i).machine.block.pending = (σ'.after i).machine.block.pending := by simp [Block.pending_after, h]
    obtain ⟨τ, τ', e, hτ, hτ', he, he', hpending⟩ := ih hi
    refine ⟨τ, τ', decBeats σ'.machine.block.pending i ++ e, ?_, ?_, ?_, ?_, hpending⟩
    · rw [Session.performAll_cons, hτ]
    · rw [Session.performAll_cons, hτ']
    · simp [he, h]
    · simp [he']

/-- Settles O56: `DEC.END` and `RESET` both leave nothing pending, and the rest follows from the pending nibble. -/
theorem nothingIsCarriedPastTheEnd : Obligations.NothingIsCarriedPastTheEnd := by
  intro ops σ _
  have hpending : (σ.after .decEnd).machine.block.pending = (σ.after .reset).machine.block.pending := rfl
  obtain ⟨τ, τ', e, hτ, hτ', he, he', hend⟩ := Session.performAll_of_pending_eq ops hpending
  refine ⟨τ, τ', e, ?_, ?_, ?_, ?_, hend⟩
  · rw [Session.performAll_cons, hτ]
  · rw [Session.performAll_cons, hτ']
  · simp [he, decBeats]
  · simp [he', decBeats]

end Sys2Proof.Machine
end

section
/-! Cutting a stream at its `END` beats and joining it again (10_state R33). -/

namespace Sys2Proof.Machine.Codec

section
variable {α : Type}

/-- Joining what a stream was cut into gives it back, behind the payload of the message under way. -/
theorem streamOf_splitMessages : ∀ (under : List α) (l : List (Beat α)),
    streamOf (splitMessages under l) = under.map Beat.data ++ l
  | under, [] => by simp [splitMessages, streamOf]
  | under, .data p :: l => by simp [splitMessages, streamOf_splitMessages (under ++ [p]) l]
  | under, .endBeat :: l => by
    have ih := streamOf_splitMessages [] l
    simp only [streamOf, List.map_nil, List.nil_append] at ih
    simp [splitMessages, streamOf, messageBeats, ih]

theorem streamOf_messages (l : List (Beat α)) : streamOf (messages l) = l := streamOf_splitMessages [] l

/-- `DATA` beats all belong to the message under way. -/
theorem splitMessages_map_data (p : List α) : ∀ (under : List α) (l : List (Beat α)),
    splitMessages under (p.map Beat.data ++ l) = splitMessages (under ++ p) l := by
  induction p with
  | nil => simp
  | cons a p ih => intro under l; simp [splitMessages, ih]

/-- A finished message in front is the first that the stream is cut into. -/
theorem messages_messageBeats_append (p : List α) (l : List (Beat α)) :
    messages (messageBeats p ++ l) = (p :: (messages l).1, (messages l).2) := by
  simp [messages, messageBeats, splitMessages_map_data, splitMessages]

theorem messages_streamOf : ∀ m : List (List α) × List α, messages (streamOf m) = m
  | ([], rest) => by simpa [messages, streamOf, splitMessages] using splitMessages_map_data rest [] []
  | (p :: ps, rest) => by
    have ih := messages_streamOf (ps, rest)
    have hcons : streamOf (p :: ps, rest) = messageBeats p ++ streamOf (ps, rest) := by simp [streamOf]
    rw [hcons, messages_messageBeats_append, ih]

end

/-- Settles O47, for bytes and for units by the same two lemmas. -/
theorem streamIsItsMessages : Obligations.StreamIsItsMessages :=
  ⟨streamOf_messages, streamOf_messages, messages_streamOf, messages_streamOf⟩

end Sys2Proof.Machine.Codec
end

section
/-! Which tables are configurations of the block (00_scope R7, 10_state R25). -/

namespace Sys2Proof

section
variable {w : Nat} {t : Vector (BitVec w) 16}

theorem Alphabet.ofTable_of_distinct (hw : 4 ≤ w) (h : TableDistinct t) :
    Alphabet.ofTable w t = .ok { symbol := fun v => t[v.toNat], distinct := h } := by
  rw [Alphabet.ofTable, if_neg (by omega), dif_pos h]

theorem Alphabet.ofTable_of_not_distinct (hw : 4 ≤ w) (h : ¬ TableDistinct t) :
    Alphabet.ofTable w t = .error .repeatedEntry := by
  rw [Alphabet.ofTable, if_neg (by omega), dif_neg h]

theorem Alphabet.ofTable_of_lt (hw : w < 4) : Alphabet.ofTable w t = .error .symwTooSmall := by
  rw [Alphabet.ofTable, if_pos hw]

/-- Sixteen distinct symbols need four bits (00_scope R7). -/
theorem Alphabet.four_le_width (A : Alphabet w) : 4 ≤ w := by
  have hinj : Function.Injective fun i : Fin 16 => (A.symbol (BitVec.ofFin i)).toFin := by
    intro i j hij
    exact congrArg BitVec.toFin (A.distinct _ _ (BitVec.toFin_inj.mp hij))
  have hcard : 2 ^ 4 ≤ 2 ^ w := by simpa using Fintype.card_le_of_injective _ hinj
  exact (Nat.pow_le_pow_iff_right (by decide)).mp hcard

end

/-- Settles O46: the three answers of `Alphabet.ofTable`, and the pigeonhole for the smaller widths. -/
theorem onlyDistinctTablesAreConfigurations : Obligations.OnlyDistinctTablesAreConfigurations := by
  refine ⟨fun w t => ⟨fun hw h => ?_, fun hw i j hne heq => ?_, Alphabet.ofTable_of_lt⟩, fun w ⟨A⟩ => A.four_le_width⟩
  · exact ⟨_, Alphabet.ofTable_of_distinct hw h, fun _ => rfl⟩
  · exact Alphabet.ofTable_of_not_distinct hw fun h => hne (h i j heq)

end Sys2Proof
end

section
/-! One more beat on an input stream, in terms of what its operation emits (20_memory R60, 41_encoder R130, 42_decoder R157). -/

namespace Sys2Proof.Machine.Codec

section
variable {α : Type}

/-- `DATA` beats more of the message under way (10_state R33). -/
theorem streamOf_append_payload (ms : List (List α)) (p q : List α) :
    streamOf (ms, p ++ q) = streamOf (ms, p) ++ q.map Beat.data := by
  simp [streamOf]

/-- `END` closes the message under way (10_state R33). -/
theorem streamOf_close (ms : List (List α)) (p : List α) : streamOf (ms ++ [p], []) = streamOf (ms, p) ++ [.endBeat] := by
  simp [streamOf, messageBeats]

end

section
variable {w : Nat} (A : Alphabet w)

theorem encodeBytes_append (B C : List Byte) : encodeBytes A (B ++ C) = encodeBytes A B ++ encodeBytes A C := by
  induction B with
  | nil => rfl
  | cons b B ih => simp [encodeBytes, ih]

@[simp] theorem encodeStream_nil : encodeStream A [] = [] := rfl

theorem encodeStream_snoc_data (l : List (Beat Byte)) (b : Byte) :
    encodeStream A (l ++ [.data b]) =
      encodeStream A l ++ [.data (n2s A (hiNibble b)), .data (n2s A (loNibble b))] := by
  simp [encodeStream, messages_snoc_data, encodeBytes_append, encodeBytes, streamOf_append_payload]

theorem encodeStream_snoc_end (l : List (Beat Byte)) : encodeStream A (l ++ [.endBeat]) = encodeStream A l ++ [.endBeat] := by
  simp [encodeStream, messages_snoc_end, ← streamOf_close, encodeBytes]

@[simp] theorem decodeStream_nil : decodeStream A [] = [] := rfl

theorem decodeStream_snoc_end (l : List (Beat (BitVec w))) :
    decodeStream A (l ++ [.endBeat]) = decodeStream A l ++ [.endBeat] := by
  simp [decodeStream, messages_snoc_end, ← streamOf_close, decodeText, recNibbles, pack]

@[simp] theorem heldNibble_nil : heldNibble A [] = none := rfl

theorem heldNibble_eq_none_iff (T : List (BitVec w)) : heldNibble A T = none ↔ (recNibbles A T).length % 2 = 0 := by
  cases h : recNibbles A T <;> simp [heldNibble, countRecognized, h]

theorem heldNibble_eq_some_iff (T : List (BitVec w)) (h : Nibble) :
    heldNibble A T = some h ↔ (recNibbles A T).length % 2 = 1 ∧ (recNibbles A T).getLast? = some h := by
  rw [heldNibble, countRecognized]
  split <;> simp <;> omega

/-- A nibble after whole pairs stays without its pair (42_decoder R152). -/
theorem pack_snoc_of_even {l : List Nibble} (hl : l.length % 2 = 0) (v : Nibble) : pack (l ++ [v]) = pack l := by
  simp [pack_append_of_even _ hl, pack]

/-- A nibble after an odd one completes its byte (42_decoder R152). -/
theorem pack_snoc_of_odd {l : List Nibble} {h : Nibble} (hl : l.length % 2 = 1) (hh : l.getLast? = some h) (v : Nibble) :
    pack (l ++ [v]) = pack l ++ [joinNibbles h v] := by
  obtain ⟨m, rfl⟩ := List.getLast?_eq_some_iff.mp hh
  have hm : m.length % 2 = 0 := by
    rw [List.length_append, List.length_singleton] at hl
    omega
  rw [pack_snoc_of_even hm, List.append_assoc, pack_append_of_even _ hm]
  rfl

section
variable {A} {T : List (BitVec w)} {u : BitVec w}

/-- An unrecognised unit is skipped (42_decoder R150). -/
theorem text_snoc_of_miss (hu : s2n A u = none) :
    decodeText A (T ++ [u]) = decodeText A T ∧ heldNibble A (T ++ [u]) = heldNibble A T := by
  rw [decodeText, heldNibble, countRecognized, recNibbles_snoc_miss A hu]
  exact ⟨rfl, rfl⟩

/-- With nothing held a recognised unit's nibble is held (42_decoder R150, R157). -/
theorem text_snoc_of_hit_of_none {v : Nibble} (hu : s2n A u = some v) (hT : heldNibble A T = none) :
    decodeText A (T ++ [u]) = decodeText A T ∧ heldNibble A (T ++ [u]) = some v := by
  have heven := (heldNibble_eq_none_iff A T).mp hT
  refine ⟨?_, ?_⟩
  · rw [decodeText, recNibbles_snoc_hit A hu, pack_snoc_of_even heven, decodeText]
  · rw [heldNibble_eq_some_iff, recNibbles_snoc_hit A hu]
    exact ⟨by simp; omega, by simp⟩

/-- With a nibble held a recognised unit completes a byte (42_decoder R150, R157). -/
theorem text_snoc_of_hit_of_some {v h : Nibble} (hu : s2n A u = some v) (hT : heldNibble A T = some h) :
    decodeText A (T ++ [u]) = decodeText A T ++ [joinNibbles h v] ∧ heldNibble A (T ++ [u]) = none := by
  obtain ⟨hodd, hlast⟩ := (heldNibble_eq_some_iff A T h).mp hT
  refine ⟨?_, ?_⟩
  · rw [decodeText, recNibbles_snoc_hit A hu, pack_snoc_of_odd hodd hlast, decodeText]
  · rw [heldNibble_eq_none_iff, recNibbles_snoc_hit A hu]
    simp
    omega

end
end

section
variable (T : List TextUnit) (u : TextUnit)

/-- What `DEC.PUT` emits is what its unit adds to the decoded text (42_decoder R157). -/
theorem decodeText_snoc_eq_decBeats :
    (decodeText Config.ALPHABET (T ++ [u])).map Beat.data =
      (decodeText Config.ALPHABET T).map Beat.data ++ decBeats (heldNibble Config.ALPHABET T) (.decPut u) := by
  cases hu : s2n Config.ALPHABET u with
  | none => simp [text_snoc_of_miss hu, decBeats, hu]
  | some v =>
    cases hT : heldNibble Config.ALPHABET T with
    | none => simp [text_snoc_of_hit_of_none hu hT, decBeats]
    | some h => simp [text_snoc_of_hit_of_some hu hT, decBeats, hu]

/-- What `DEC.PUT` leaves pending is what its unit leaves of the text without a pair (42_decoder R157). -/
theorem heldNibble_snoc_eq_pendingAfter :
    heldNibble Config.ALPHABET (T ++ [u]) = pendingAfter (heldNibble Config.ALPHABET T) (.decPut u) := by
  cases hu : s2n Config.ALPHABET u with
  | none => simp [text_snoc_of_miss hu, pendingAfter, hu]
  | some v =>
    cases hT : heldNibble Config.ALPHABET T with
    | none => simp [text_snoc_of_hit_of_none hu hT, pendingAfter, hu]
    | some h => simp [text_snoc_of_hit_of_some hu hT, pendingAfter, hu]

end

theorem decodeStream_snoc_data (l : List (Beat TextUnit)) (u : TextUnit) :
    decodeStream Config.ALPHABET (l ++ [.data u]) = decodeStream Config.ALPHABET l ++
      decBeats (heldNibble Config.ALPHABET (messages l).2) (.decPut u) := by
  simp [decodeStream, messages_snoc_data, streamOf, decodeText_snoc_eq_decBeats]

end Sys2Proof.Machine.Codec
end

section
/-! What every move of the environment keeps: it is enough to look at operations and at the wires' places (20_memory R61). -/

namespace Sys2Proof.Machine

open Sys2Proof.Safety

theorem encode_symRow (v : Nibble) : encode (symRow v) = .code v := by
  have h := mem_allNibbles v
  simp only [allNibbles, List.mem_cons, List.not_mem_nil, or_false] at h
  rcases h with rfl | rfl | rfl | rfl | rfl | rfl | rfl | rfl | rfl | rfl | rfl | rfl | rfl | rfl | rfl | rfl <;> rfl

/-- An input is on record as the operation it selects: the payload bits of an `END` are not (30_encoding R83). -/
theorem Env.accept_encode {x : Input} {i : Instr} (h : decode x = .ok i) (e : Env) : e.accept (encode i) = e.accept x := by
  cases x with
  | rst level =>
    rw [decode] at h
    split at h
    · next hl => cases h; rw [hl]; rfl
    · cases h
  | encIn b =>
    rw [decode_encIn] at h
    cases h
    cases hb : Beat.ofPins b <;> rw [Env.accept_encIn, hb] <;> rfl
  | decIn b =>
    rw [decode_decIn] at h
    cases h
    cases hb : Beat.ofPins b <;> rw [Env.accept_decIn, hb] <;> rfl
  | n2sV v => cases h; rfl
  | s2nU u => cases h; rfl
  | code v => cases h; rw [encode_symRow]

/-- Taking an input starts all streams again, or only adds to the input streams (10_state R33, 43_system R180). -/
theorem Env.accept_cases (x : Input) :
    (∀ e : Env, e.accept x = e.restart) ∨
      ∃ p q, ∀ e : Env, e.accept x = { e with encIn := e.encIn ++ p, decIn := e.decIn ++ q } := by
  cases x with
  | rst level =>
    by_cases hl : level = 1
    · exact .inl fun e => if_pos hl
    · exact .inr ⟨[], [], fun e => by rw [Env.accept, if_neg hl]; simp⟩
  | encIn b => exact .inr ⟨[Beat.ofPins b], [], fun e => by simp⟩
  | decIn b => exact .inr ⟨[], [Beat.ofPins b], fun e => by simp⟩
  | n2sV _ | s2nU _ | code _ => exact .inr ⟨[], [], fun e => by simp⟩

/-- A step that emits nothing leaves the record as it is (10_state R33). -/
theorem Env.collect_of_nothing {p : Ports} (henc : p.encOut = []) (hdec : p.decOut = []) (e : Env) : e.collect p = e := by
  simp [Env.collect, henc, hdec]

/-- A step on record is an operation, or changes neither the registers nor the record (30_encoding R84; log 11). -/
theorem Session.record_cases {x : Input} {σ : Session} {t : State} (hx : σ.machine.presented = some x)
    (ht : step σ.machine = .next t) :
    (∃ i, t.block = (σ.after i).machine.block ∧ (σ.record x t).env = (σ.after i).env) ∨
    (t.block = σ.machine.block ∧ (σ.record x t).env = σ.env) := by
  rw [step_eq_operation, State.operation, hx, Option.bind_some] at ht
  cases hd : decode x with
  | ok i =>
    rw [hd] at ht
    cases ht
    refine .inl ⟨i, rfl, ?_⟩
    rw [Session.record_env, ← Env.accept_encode hd]
    rfl
  | error r =>
    rw [hd] at ht
    cases ht
    obtain rfl := (decode_error_iff x).mp ⟨r, hd⟩
    exact .inr ⟨rfl, Env.collect_of_nothing rfl rfl _⟩

/-- A predicate on the registers and on the environment's record that operations and the wires' places keep. -/
structure Session.IsKept (P : Session → Prop) : Prop where
  /-- It reads the registers and the record alone. -/
  congr : ∀ {σ τ : Session}, τ.machine.block = σ.machine.block → τ.env = σ.env → P σ → P τ
  /-- Every operation keeps it. -/
  after : ∀ (i : Instr) {σ : Session}, P σ → P (σ.after i)
  /-- The wire from `enc_out` may carry a beat that was emitted (log 12). -/
  encWire : ∀ {σ : Session} {b}, σ.env.encSent[σ.env.encTaken]? = some b → P σ → P { σ with env := σ.env.advanceEncWire }
  /-- The wire from `dec_out` may carry a beat that was emitted (log 12). -/
  decWire : ∀ {σ : Session} {b}, σ.env.decSent[σ.env.decTaken]? = some b → P σ → P { σ with env := σ.env.advanceDecWire }

namespace Session.IsKept

variable {P : Session → Prop} (h : IsKept P)
include h

theorem record {x : Input} {σ : Session} {t : State} (hσ : P σ) (hx : σ.machine.presented = some x)
    (ht : step σ.machine = .next t) : P (σ.record x t) := by
  obtain ⟨i, hblock, henv⟩ | ⟨hblock, henv⟩ := Session.record_cases hx ht
  · exact h.congr hblock henv (h.after i hσ)
  · exact h.congr hblock henv hσ

theorem edge {σ τ : Session} (hσ : P σ) (hτ : σ.edge = .next τ) : P τ := by
  obtain ⟨t, ht, ⟨x, hx, he⟩ | ⟨_, rfl, he⟩⟩ := σ.edge_cases
  · obtain rfl := Host.Outcome.next.inj (he.symm.trans hτ)
    exact h.record hσ hx ht
  · obtain rfl := Host.Outcome.next.inj (he.symm.trans hτ)
    exact h.congr (σ := σ) rfl rfl hσ

theorem present {x : Input} {σ τ : Session} (hσ : P σ) (hτ : σ.present x = .next τ) : P τ :=
  h.edge (h.congr (σ := σ) (τ := σ.drive x) rfl rfl hσ) hτ

theorem move (x : Slot) (σ τ : Session) (hσ : P σ) (hτ : σ.move x = .next τ) : P τ := by
  rcases σ.move_cases x with ⟨y, _, he⟩ | ⟨y, _, he⟩ | ⟨_, he⟩ | ⟨b, _, hb, he⟩ | ⟨b, _, hb, he⟩ | he <;>
    rw [he] at hτ
  · exact h.present hσ hτ
  · cases hτ
    exact h.congr (σ := σ) rfl rfl hσ
  · exact h.edge hσ hτ
  · exact h.present (h.encWire hb hσ) hτ
  · exact h.present (h.decWire hb hσ) hτ
  · cases hτ
    exact hσ

theorem play (l : List Slot) {σ τ : Session} (hσ : P σ) (hτ : σ.play l = .next τ) : P τ := Session.play_keeps h.move l hσ hτ

end Session.IsKept

end Sys2Proof.Machine
end

section
/-! The invariants of the streams, of the wires and of the records (20_memory R60, R61, R66; 70_reset R252). -/

namespace Sys2Proof.Machine

open Sys2Proof.Machine.Codec Sys2Proof.Safety

theorem encStreamInv_after (i : Instr) {σ : Session} (h : EncStreamInv σ) : EncStreamInv (σ.after i) := by
  rw [EncStreamInv] at h ⊢
  cases i with
  | encPut b => simp [encode, Beat.ofPins, encBeats, encodeStream_snoc_data, h]
  | encEnd => simp [encode, Beat.ofPins, encBeats, encodeStream_snoc_end, h]
  | reset => simp [encode, encBeats]
  | _ => simpa [encode, encBeats] using h

theorem encStreamInv_isKept : Session.IsKept EncStreamInv where
  congr _ henv h := by rwa [EncStreamInv, henv]
  after := encStreamInv_after
  encWire _ h := h
  decWire _ h := h

/-- Settles O28: an operation of ENC adds to `enc_out` the encoding of what it adds to `enc_in`. -/
theorem stepKeepsTheEncoderStreams : Obligations.StepKeepsTheEncoderStreams :=
  ⟨fun _ _ _ => encStreamInv_isKept.record, fun l _ _ => encStreamInv_isKept.play l⟩

theorem decStreamInv_after (i : Instr) {σ : Session} (h : DecStreamInv σ) : DecStreamInv (σ.after i) := by
  obtain ⟨hout, hpending⟩ := h
  rw [DecStreamInv, Session.after_block, Block.pending_after, Session.after_decOut, Session.after_decIn]
  cases i with
  | decPut u =>
    simp [encode, Beat.ofPins, hout, hpending, decodeStream_snoc_data, messages_snoc_data, heldNibble_snoc_eq_pendingAfter]
  | decEnd => simp [encode, Beat.ofPins, hout, decBeats, pendingAfter, decodeStream_snoc_end, messages_snoc_end]
  | reset => exact ⟨rfl, rfl⟩
  | _ => simpa [encode, decBeats, pendingAfter] using ⟨hout, hpending⟩

theorem decStreamInv_isKept : Session.IsKept DecStreamInv where
  congr hblock henv h := by rwa [DecStreamInv, hblock, henv]
  after := decStreamInv_after
  encWire _ h := h
  decWire _ h := h

/-- Settles O29: an operation of DEC adds to `dec_out` and leaves pending what one unit more, or the `END`, does to the decoding. -/
theorem stepKeepsTheDecoderStreams : Obligations.StepKeepsTheDecoderStreams :=
  ⟨fun _ _ _ => decStreamInv_isKept.record, fun l _ _ => decStreamInv_isKept.play l⟩

theorem wireInv_isKept : Session.IsKept WireInv where
  congr _ henv h := by rwa [WireInv, henv]
  after i σ h := by
    obtain ⟨henc, hdec⟩ := h
    simp only [WireInv, Session.after_encTaken, Session.after_decTaken, Session.after_encSent, Session.after_decSent,
      List.length_append]
    omega
  encWire hb h := ⟨(List.getElem?_eq_some_iff.mp hb).1, h.2⟩
  decWire hb h := ⟨h.1, (List.getElem?_eq_some_iff.mp hb).1⟩

/-- Settles O30: operations only add to the records, and a wire moves on by a beat that is on record. -/
theorem stepKeepsTheWiresBehind : Obligations.StepKeepsTheWiresBehind := wireInv_isKept.move

/-- Taking an input keeps the output streams or starts them again (10_state R33, 43_system R180). -/
theorem Env.accept_out_suffix (x : Input) (e : Env) :
    (e.accept x).encOut <:+ e.encOut ∧ (e.accept x).decOut <:+ e.decOut := by
  rcases Env.accept_cases x with h | ⟨p, q, h⟩ <;> rw [h]
  · exact ⟨List.nil_suffix, List.nil_suffix⟩
  · exact ⟨List.suffix_rfl, List.suffix_rfl⟩

theorem sentInv_after (i : Instr) {σ : Session} (h : SentInv σ) : SentInv (σ.after i) := by
  obtain ⟨henc, hdec⟩ := h
  obtain ⟨haenc, hadec⟩ := σ.env.accept_out_suffix (encode i)
  obtain ⟨p, hp⟩ := haenc.trans henc
  obtain ⟨q, hq⟩ := hadec.trans hdec
  exact ⟨⟨p, by simp [← hp]⟩, ⟨q, by simp [← hq]⟩⟩

/-- The records of `τ` go on from those of `σ` (70_reset R252). -/
def Session.RecordsExtend (σ τ : Session) : Prop :=
  σ.env.encSent <+: τ.env.encSent ∧ σ.env.decSent <+: τ.env.decSent

theorem sentInv_isKept (σ : Session) : Session.IsKept fun τ => SentInv τ ∧ σ.RecordsExtend τ where
  congr _ henv h := by rwa [SentInv, Session.RecordsExtend, henv]
  after i τ h := by
    obtain ⟨hsent, henc, hdec⟩ := h
    refine ⟨sentInv_after i hsent, ?_, ?_⟩
    · rw [Session.after_encSent]
      exact henc.trans (List.prefix_append _ _)
    · rw [Session.after_decSent]
      exact hdec.trans (List.prefix_append _ _)
  encWire _ h := h
  decWire _ h := h

/-- Settles O31: an operation adds the same beats to a stream and to its record, and `RESET` takes from the stream alone. -/
theorem stepNeverTakesBackABeat : Obligations.StepNeverTakesBackABeat := fun x σ τ h =>
  (sentInv_isKept σ).move x σ τ ⟨h, List.prefix_rfl, List.prefix_rfl⟩

end Sys2Proof.Machine
end

section
/-! The lookups and the code rows, and the order of the two units' operations (20_memory R57, R61). -/

namespace Sys2Proof.Machine

section
variable {i : Instr} (h : isTapOp i = true)
include h

/-- A lookup or a code row changes no register and emits nothing (20_memory R57). -/
theorem after_of_tapOp : (∀ b : Block, b.after i = b) ∧ encBeats i = [] ∧ ∀ p, decBeats p i = [] := by
  cases i with
  | encPut _ | encEnd | decPut _ | decEnd | reset => simp [isTapOp, placeOf] at h
  | _ => exact ⟨fun _ => rfl, rfl, fun _ => rfl⟩

/-- Its pins are no beat and no `rst` (30_encoding R84). -/
theorem Env.accept_of_tapOp (e : Env) : e.accept (encode i) = e := by
  cases i with
  | encPut _ | encEnd | decPut _ | decEnd | reset => simp [isTapOp, placeOf] at h
  | _ => rfl

theorem Session.after_of_tapOp (σ : Session) :
    (σ.after i).machine.block = σ.machine.block ∧ (σ.after i).env = σ.env := by
  obtain ⟨hblock, henc, hdec⟩ := Machine.after_of_tapOp h
  refine ⟨hblock _, ?_⟩
  rw [Session.after, Session.record_env, Env.accept_of_tapOp h, Env.collect_of_nothing henc (hdec _)]

end

/-- Settles O15: the operation writes tap levels alone. -/
theorem tapOpsFrame : Obligations.TapOpsFrame := by
  intro i hi
  refine ⟨fun s t h => ?_, fun σ τ h => ?_⟩
  · obtain rfl := exec_next_unique (exec_eq_after i s) h
    obtain ⟨hblock, henc, hdec⟩ := after_of_tapOp hi
    refine ⟨hblock _, rfl, rfl, henc, hdec _, ?_, ?_⟩
    · rintro v rfl
      rfl
    · rintro u rfl
      rfl
  · obtain rfl := Host.Outcome.next.inj ((σ.perform_eq_after i).symm.trans h)
    exact (Session.after_of_tapOp hi σ).2

/-- The session after a list of operations. -/
def Session.afterAll (l : List Instr) (σ : Session) : Session := l.foldl (fun σ i => σ.after i) σ

theorem Session.performAll_eq_afterAll (l : List Instr) : ∀ σ : Session, σ.performAll l = .next (σ.afterAll l) := by
  induction l with
  | nil => intro σ; rfl
  | cons i l ih => intro σ; rw [Session.performAll_cons, ih]; rfl

/-- A part of the session on which only some operations act, each as a function of that part. -/
structure Session.IsActedOnBy {β : Type} (view : Session → β) (acts : Instr → Bool) : Prop where
  /-- What an operation makes of the part depends on the part alone. -/
  congr : ∀ (i : Instr) {σ τ : Session}, view σ = view τ → view (σ.after i) = view (τ.after i)
  /-- The other operations leave the part alone. -/
  skip : ∀ {i : Instr}, acts i = false → ∀ σ : Session, view (σ.after i) = view σ

namespace Session.IsActedOnBy

variable {β : Type} {view : Session → β} {acts : Instr → Bool} (h : IsActedOnBy view acts)
include h

theorem afterAll_filter (l : List Instr) :
    ∀ {σ τ : Session}, view σ = view τ → view (σ.afterAll l) = view (τ.afterAll (l.filter acts)) := by
  induction l with
  | nil => exact id
  | cons i l ih =>
    intro σ τ hστ
    cases hi : acts i with
    | true => simpa [hi, Session.afterAll] using ih (h.congr i hστ)
    | false => simpa [hi, Session.afterAll] using ih ((h.skip hi σ).trans hστ)

/-- Lists of operations that agree on those that act on the part leave it the same. -/
theorem afterAll_eq {l m : List Instr} (hlm : l.filter acts = m.filter acts) (σ : Session) :
    view (σ.afterAll l) = view (σ.afterAll m) := by
  rw [h.afterAll_filter l rfl, hlm, ← h.afterAll_filter m rfl]

end Session.IsActedOnBy

/-- ENC's part of a session: its streams, the record of what it emitted and the place of the wire on it (20_memory R60). -/
def Session.encPart (σ : Session) : List (Beat Byte) × List (Beat TextUnit) × List (Beat TextUnit) × Nat :=
  (σ.env.encIn, σ.env.encOut, σ.env.encSent, σ.env.encTaken)

/-- DEC's part of a session, with its registers (20_memory R60). -/
def Session.decPart (σ : Session) : Block × List (Beat TextUnit) × List (Beat Byte) × List (Beat Byte) × Nat :=
  (σ.machine.block, σ.env.decIn, σ.env.decOut, σ.env.decSent, σ.env.decTaken)

/-- The two parts are all of it but the ports. -/
theorem Session.eq_of_parts_eq {σ τ : Session} (henc : σ.encPart = τ.encPart) (hdec : σ.decPart = τ.decPart) :
    σ.machine.block = τ.machine.block ∧ σ.env = τ.env := by
  simp only [Session.encPart, Prod.mk.injEq] at henc
  simp only [Session.decPart, Prod.mk.injEq] at hdec
  obtain ⟨hei, heo, hes, het⟩ := henc
  obtain ⟨hblock, hdi, hdo, hds, hdt⟩ := hdec
  refine ⟨hblock, ?_⟩
  cases hσ : σ.env
  cases hτ : τ.env
  simp_all

/-- Every operation has its place (20_memory R60). -/
theorem op_place_cases (i : Instr) : isEncOp i = true ∨ isDecOp i = true ∨ isResetOp i = true ∨ isTapOp i = true := by
  cases h : placeOf i <;> simp [isEncOp, isDecOp, isResetOp, isTapOp, h]

/-- On ENC's part only the operations of ENC and `RESET` act (20_memory R61). -/
theorem Session.encPart_isActedOnBy : Session.IsActedOnBy Session.encPart fun i => isEncOp i || isResetOp i where
  congr i σ τ h := by
    simp only [Session.encPart, Prod.mk.injEq] at h
    obtain ⟨hin, hout, hsent, htaken⟩ := h
    rcases Env.accept_cases (encode i) with ha | ⟨p, q, ha⟩ <;> simp [Session.encPart, ha, hin, hout, hsent, htaken]
  skip {i} hi σ := by
    simp only [Bool.or_eq_false_iff] at hi
    obtain ⟨henc, hreset⟩ := hi
    rcases op_place_cases i with h | h | h | h
    · simp [h] at henc
    · obtain ⟨b, hb⟩ := encode_of_decOp h
      simp [Session.encPart, encBeats_of_decOp h, hb]
    · simp [h] at hreset
    · rw [Session.encPart, (Session.after_of_tapOp h σ).2, Session.encPart]

/-- On DEC's part only the operations of DEC and `RESET` act (20_memory R61). -/
theorem Session.decPart_isActedOnBy : Session.IsActedOnBy Session.decPart fun i => isDecOp i || isResetOp i where
  congr i σ τ h := by
    simp only [Session.decPart, Prod.mk.injEq] at h
    obtain ⟨hblock, hin, hout, hsent, htaken⟩ := h
    rcases Env.accept_cases (encode i) with ha | ⟨p, q, ha⟩ <;>
      simp [Session.decPart, ha, hblock, hin, hout, hsent, htaken]
  skip {i} hi σ := by
    simp only [Bool.or_eq_false_iff] at hi
    obtain ⟨hdec, hreset⟩ := hi
    rcases op_place_cases i with h | h | h | h
    · obtain ⟨b, hb⟩ := encode_of_encOp h
      simp [Session.decPart, Block.after_of_encOp h, decBeats_of_encOp h, hb]
    · simp [h] at hdec
    · simp [h] at hreset
    · obtain ⟨hblock, henv⟩ := Session.after_of_tapOp h σ
      rw [Session.decPart, hblock, henv, Session.decPart]

/-- Settles O52: each unit's part of the session is made by its own operations and the `RESET`s. -/
theorem interleavingIsUnobservable : Obligations.InterleavingIsUnobservable := by
  intro l1 l2 σ henc hdec
  obtain ⟨hblock, henv⟩ := Session.eq_of_parts_eq (Session.encPart_isActedOnBy.afterAll_eq henc σ)
    (Session.decPart_isActedOnBy.afterAll_eq hdec σ)
  exact ⟨_, _, σ.performAll_eq_afterAll l1, σ.performAll_eq_afterAll l2, hblock, henv⟩

end Sys2Proof.Machine
end

section
/-! Inputs and operations, each from the other, and the words of beats (30_encoding R83, R84). -/

namespace Sys2Proof

/-- The number on the wires of any input fits its port (10_state R31). -/
theorem Input.fits (x : Input) : x.port.Fits x.toNat := by
  cases x with
  | rst level => exact level.isLt
  | encIn beat => exact beat.toNat_lt
  | decIn beat => exact beat.toNat_lt
  | n2sV v => exact v.isLt
  | s2nU u => exact u.isLt
  | code v => exact v.isLt

/-- Settles O17: the pins of an operation select it, and they are an input like any other. -/
theorem decodeOfEncodeIsTheInstruction : Obligations.DecodeOfEncodeIsTheInstruction :=
  fun i => ⟨decode_encode i, (encode i).fits⟩

section
variable {n : Nat} {w : BitVec (n + 1)}

/-- A word below `2 ^ n` reads as `DATA` of its number (30_encoding R83). -/
theorem Beat.ofPins_ofWord_of_lt (h : w.toNat < 2 ^ n) : Beat.ofPins (PinBeat.ofWord w) = .data (BitVec.ofNat n w.toNat) := by
  rw [PinBeat.ofWord_of_lt h]
  rfl

/-- A word from `2 ^ n` up reads as `END` (30_encoding R83). -/
theorem Beat.ofPins_ofWord_of_ge (h : 2 ^ n ≤ w.toNat) : Beat.ofPins (PinBeat.ofWord w) = .endBeat := by
  rw [PinBeat.ofWord_of_ge h]
  rfl

/-- The number on the wires of an `END` that an output port drives (30_encoding R83). -/
theorem Beat.toNat_toPins_endBeat : (Beat.endBeat : Beat (BitVec n)).toPins.toNat = 2 ^ n := by
  simp [Beat.toPins, PinBeat.toNat]

end

/-- Settles O18: a beat's word is one of the two ranges of R83, and each range selects one operation. -/
theorem everyInputSelectsItsOperation : Obligations.EveryInputSelectsItsOperation := by
  refine ⟨fun beat => ?_, fun beat => ?_, rfl, fun _ => rfl, fun _ => rfl⟩
  · rw [decode_encIn]
    split_ifs with h
    · rw [Beat.ofPins_ofWord_of_lt h]
    · rw [Beat.ofPins_ofWord_of_ge (not_lt.mp h)]
  · rw [decode_decIn]
    split_ifs with h
    · rw [Beat.ofPins_ofWord_of_lt h]
    · rw [Beat.ofPins_ofWord_of_ge (not_lt.mp h)]

/-- Settles O19: the number of a beat's word, and a word and the pins read back. -/
theorem beatWordsAreTheFormat : Obligations.BeatWordsAreTheFormat := fun _ =>
  ⟨fun p => (PinBeat.toNat_toWord _).trans (Laws.TableRow.toNat_data p),
    (PinBeat.toNat_toWord _).trans Beat.toNat_toPins_endBeat,
    fun _ => Beat.ofPins_ofWord_of_ge, fun _ => Beat.ofPins_ofWord_of_lt, PinBeat.ofWord_toWord, Beat.ofPins_toPins⟩

/-- Settles O20: each word is laid out on its port's wires and read from them. -/
theorem wordsOfTheSpecDecode : Obligations.WordsOfTheSpecDecode :=
  ⟨rfl, rfl, rfl, rfl, rfl, rfl, rfl, rfl⟩

end Sys2Proof
end

section
/-! Text written with one table and read with another (30_encoding R91), from the split and the join of a byte (R85). -/

namespace Sys2Proof

/-- An alphabet is its table (10_state R24). -/
theorem Alphabet.eq_of_symbol_eq {w : Nat} {A A' : Alphabet w} (h : ∀ v, A.symbol v = A'.symbol v) : A = A' := by
  cases A
  cases A'
  congr
  exact funext h

end Sys2Proof

namespace Sys2Proof.Machine

@[simp] theorem hiNibble_joinNibbles (h l : Nibble) : hiNibble (joinNibbles h l) = h := by
  rw [hiNibble, joinNibbles, BitVec.extractLsb'_append_eq_left]

@[simp] theorem loNibble_joinNibbles (h l : Nibble) : loNibble (joinNibbles h l) = l := by
  rw [loNibble, joinNibbles, BitVec.extractLsb'_append_eq_right]

/-- The two halves of a byte make the byte (30_encoding R85). -/
@[simp] theorem joinNibbles_hiNibble_loNibble (b : Byte) : joinNibbles (hiNibble b) (loNibble b) = b :=
  (BitVec.extractLsb'_append_extractLsb'_eq_extractLsb' (start₁ := 0) (len₁ := 4) rfl).trans BitVec.extractLsb'_eq_self

end Sys2Proof.Machine

namespace Sys2Proof.Machine.Codec

variable {w : Nat}

/-- The nibbles of an encoded byte, read back with the same table, stand before those of the rest (42_decoder R152). -/
theorem recNibbles_encodeBytes_cons (A : Alphabet w) (b : Byte) (B : List Byte) :
    recNibbles A (encodeBytes A (b :: B)) = hiNibble b :: loNibble b :: recNibbles A (encodeBytes A B) := by
  have hhit (v : Nibble) : s2n A (n2s A v) = some v := s2n_symbol A v
  rw [encodeBytes, List.cons_append, List.cons_append, List.nil_append, recNibbles_cons_hit A (hhit _),
    recNibbles_cons_hit A (hhit _)]

/-- Encoded bytes read back with the same table (44_properties R193). -/
theorem decodeText_encodeBytes (A : Alphabet w) (B : List Byte) : decodeText A (encodeBytes A B) = B := by
  induction B with
  | nil => rfl
  | cons b B ih =>
    rw [decodeText, recNibbles_encodeBytes_cons, pack, joinNibbles_hiNibble_loNibble]
    exact congrArg (b :: ·) ih

/-- The byte of twice the nibble `v` reads back only where the reader's entry `v` is the writer's (30_encoding R91). -/
theorem symbol_eq_of_decodeText_twice {A A' : Alphabet w} {v : Nibble}
    (h : decodeText A (encodeBytes A' [joinNibbles v v]) = [joinNibbles v v]) : A.symbol v = A'.symbol v := by
  have htext : encodeBytes A' [joinNibbles v v] = [A'.symbol v, A'.symbol v] := by simp [encodeBytes, n2s, romRead]
  rw [htext, decodeText] at h
  cases hs : s2n A (A'.symbol v) with
  | none => simp [recNibbles, hs, pack] at h
  | some x =>
    have hbyte : joinNibbles x x = joinNibbles v v := by simpa [recNibbles, hs, pack] using h
    have hx : x = v := by simpa using congrArg hiNibble hbyte
    exact (s2n_eq_some_iff A _ v).mp (hx ▸ hs)

/-- Settles O45: equal tables are one alphabet, which reads back what it wrote; and one byte per entry shows the entries equal. -/
theorem sameTableIsNeededAndEnough : Obligations.SameTableIsNeededAndEnough := by
  intro w A A'
  constructor
  · exact fun h v => symbol_eq_of_decodeText_twice (h [joinNibbles v v])
  · intro h
    obtain rfl := Alphabet.eq_of_symbol_eq h
    exact decodeText_encodeBytes A

end Sys2Proof.Machine.Codec
end

section
/-! What a step and a move of the environment run, and what a row of the code table shows (30_encoding R84, R86). -/

namespace Sys2Proof.Machine

/-- Settles O6: the row is shown at both taps, and the table finds its own entry. -/
theorem codeTableRowsShowBothDirections : Obligations.CodeTableRowsShowBothDirections := by
  intro s i v h
  obtain ⟨v, _, heq⟩ := List.mem_map.mp (show (i, v) ∈ allNibbles.map fun v => (symRow v, v) from h)
  obtain ⟨rfl, rfl⟩ := Prod.mk.inj heq
  have hhit : s2n Config.ALPHABET (n2s Config.ALPHABET v) = some v := s2n_symbol _ v
  exact ⟨rfl, _, exec_symRow v s, rfl, rfl, by simp [State.s2nHit, hhit], by simp [State.s2nV, hhit], rfl⟩

/-- A step on a presented input that selects nothing only begins and ends (60_exceptions R233; log 11). -/
theorem step_of_presented_error {s : State} {x : Input} {r : Reject} (hs : s.presented = some x) (h : decode x = .error r) :
    step s = .next s.take.beginStep := by
  simp [step, fetch, hs, h]

/-- A step with nothing presented only begins and ends (60_exceptions R233; log 11). -/
theorem step_of_not_presented {s : State} (hs : s.presented = none) : step s = .next s.take.beginStep := by
  simp [step, fetch, hs]

namespace Session

variable {σ : Session}

/-- An edge on a presented input that selects an operation is `exec` of it and its record (10_state R33). -/
theorem edge_of_presented {x : Input} {i : Instr} (hx : σ.machine.presented = some x) (h : decode x = .ok i) :
    ∃ t, exec i σ.machine.take = .next t ∧ σ.edge = .next (σ.record x t) := by
  obtain ⟨t, ht⟩ := exec_total i σ.machine.take
  exact ⟨t, ht, by simp [Session.edge, step_of_presented hx h, ht, hx]⟩

/-- The wire to `dec_in` performs the operation of the beat it carries (20_memory R61). -/
theorem move_encToDec_of_some {b : Beat TextUnit} {i : Instr} (hi : encode i = .decIn b.toPins)
    (hb : σ.env.encSent[σ.env.encTaken]? = some b) :
    σ.move .encToDec = Session.perform i { σ with env := σ.env.advanceEncWire } := by
  simp [Session.move, Session.perform, hb, hi]

/-- The wire to `enc_in` performs the operation of the beat it carries (30_encoding R83). -/
theorem move_decToEnc_of_some {b : Beat Byte} {i : Instr} (hi : encode i = .encIn b.toPins)
    (hb : σ.env.decSent[σ.env.decTaken]? = some b) :
    σ.move .decToEnc = Session.perform i { σ with env := σ.env.advanceDecWire } := by
  simp [Session.move, Session.perform, hb, hi]

/-- A wire with no beat to carry does nothing (log 11). -/
theorem move_encToDec_of_none (h : σ.env.encSent[σ.env.encTaken]? = none) : σ.move .encToDec = .next σ := by
  simp [Session.move, h]

/-- A wire with no beat to carry does nothing (log 11). -/
theorem move_decToEnc_of_none (h : σ.env.decSent[σ.env.decTaken]? = none) : σ.move .decToEnc = .next σ := by
  simp [Session.move, h]

end Session

/-- Settles O22: the steps by what is presented, then the session's operations and edges, then its wires. -/
theorem stepRunsTheDecodedInstruction : Obligations.StepRunsTheDecodedInstruction :=
  ⟨fun _ _ hs => ⟨fun _ => step_of_presented hs, fun _ => step_of_presented_error hs⟩,
    fun s _ => s.presented_of_rst,
    fun s => s.presented_of_no_rst,
    fun _ => step_of_not_presented,
    Session.perform_cases,
    fun _ _ _ => Session.edge_of_presented,
    fun _ => ⟨fun _ => Session.move_encToDec_of_some rfl, Session.move_encToDec_of_some rfl, Session.move_encToDec_of_none,
      fun _ => Session.move_decToEnc_of_some rfl, Session.move_decToEnc_of_some rfl, Session.move_decToEnc_of_none⟩⟩

end Sys2Proof.Machine
end

section
/-! The two lookups: what any search of the table answers, which units are recognised, and what the taps show (40_alphabet_lookup
R110 to R117). -/

namespace Sys2Proof.Machine

section
variable {w : Nat} (A : Alphabet w)

/-- R111 and R113: distinctness leaves one answer, so whatever is right on a hit and right on a miss is the answer of `S2N`. -/
theorem eq_s2n_of_right_on_hit_and_miss {u : BitVec w} {answer : Option Nibble}
    (hhit : ∀ v, answer = some v → A.symbol v = u) (hmiss : answer = none → ∀ v, A.symbol v ≠ u) : answer = s2n A u := by
  cases answer with
  | none => exact ((s2n_eq_none_iff A u).mpr (hmiss rfl)).symm
  | some v => exact ((s2n_eq_some_iff A u v).mpr (hhit v rfl)).symm

/-- A search of the table in any order that visits all entries is right on a hit and on a miss (40_alphabet_lookup R113). -/
theorem find?_symbol_eq_s2n {order : List Nibble} (hall : ∀ v : Nibble, v ∈ order) (u : BitVec w) :
    order.find? (fun v => A.symbol v == u) = s2n A u := by
  apply eq_s2n_of_right_on_hit_and_miss
  · intro v h
    simpa using List.find?_some h
  · intro h v
    simpa using List.find?_eq_none.mp h v (hall v)

/-- Settles O2: each search and each method is right on a hit and on a miss. -/
theorem searchMethodUnobservable : Obligations.SearchMethodUnobservable :=
  fun _ A => ⟨fun _ => find?_symbol_eq_s2n A,
    fun _ hhit hmiss u => eq_s2n_of_right_on_hit_and_miss A (hhit u) (hmiss u)⟩

/-- The recognised units are the entries of the table (40_alphabet_lookup R111). -/
theorem Codec.setOf_isRecognised_eq_range : {u : BitVec w | Codec.isRecognised A u = true} = Set.range A.symbol := by
  ext u
  simp [Codec.isRecognised, Option.isSome_iff_exists, s2n_eq_some_iff]

/-- There are sixteen nibble values (10_state R24). -/
theorem card_nibble : Nat.card Nibble = 16 :=
  (Nat.card_congr BitVec.equivFin.toEquiv).trans (Nat.card_fin _)

/-- Settles O3: the sixteen entries are distinct, so they are sixteen units. -/
theorem exactlySixteenUnitsHit : Obligations.ExactlySixteenUnitsHit := by
  intro w A
  rw [Codec.setOf_isRecognised_eq_range, Set.ncard_range_of_injective A.distinct, card_nibble]

/-- Settles O1: all five clauses are distinctness and the two properties that define `S2N`. -/
theorem lookupsAgreeOnTheAlphabet : Obligations.LookupsAgreeOnTheAlphabet := fun _ A =>
  ⟨fun _ i j hi hj => A.distinct i j (hi.trans hj.symm),
    s2n_symbol A,
    fun u v => (s2n_eq_some_iff A u v).mp,
    fun u => (s2n_eq_none_iff A u).trans (forall_congr' fun _ => ne_comm),
    A.distinct⟩

end

section
variable {s : State}

/-- The tap outputs while the level on `s2n_u` is the symbol of `v` (10_state R31, 40_alphabet_lookup R111). -/
theorem State.s2n_outputs_of_hit {v : Nibble} (h : s2n Config.ALPHABET s.ports.s2nU = some v) : s.s2nHit = 1 ∧ s.s2nV = v := by
  simp [State.s2nHit, State.s2nV, h]

/-- `s2n_hit` while the level on `s2n_u` is no symbol; `s2n_v` is then free (40_alphabet_lookup R111; log 5). -/
theorem State.s2nHit_of_miss (h : s2n Config.ALPHABET s.ports.s2nU = none) : s.s2nHit = 0 := by
  simp [State.s2nHit, h]

end

/-- Settles O4: the operation leaves `v` on the tap, and the output follows from it. -/
theorem n2sPutsTheSymbolOnTheTap : Obligations.N2sPutsTheSymbolOnTheTap :=
  fun v s => ⟨rfl, _, exec_eq_after (.n2s v) s, rfl, rfl⟩

/-- Settles O5: the operation leaves `u` on the tap, where the table finds it or does not. -/
theorem s2nPutsTheNibbleOnTheTap : Obligations.S2nPutsTheNibbleOnTheTap := by
  intro u s
  have htap : (s.after (.s2n u)).ports.s2nU = u := State.after_s2nU _ _
  refine ⟨rfl, _, exec_eq_after (.s2n u) s, rfl, fun v hv => ?_, fun hu => ?_⟩
  · exact State.s2n_outputs_of_hit (by rw [htap, s2n_eq_some_iff, hv])
  · exact State.s2nHit_of_miss (by rwa [htap, s2n_eq_none_iff])

end Sys2Proof.Machine
end

section
/-! The encoder: the halves of a byte as numbers (30_encoding R85), where each half's symbol stands in the text (41_encoder R132), and
the two operations (R130, R131). -/

namespace Sys2Proof.Machine

theorem toNat_hiNibble (b : Byte) : (hiNibble b).toNat = b.toNat / 16 := by
  have hb := b.isLt
  rw [hiNibble, BitVec.extractLsb'_toNat, Nat.shiftRight_eq_div_pow]
  omega

theorem toNat_loNibble (b : Byte) : (loNibble b).toNat = b.toNat % 16 := by
  rw [loNibble, BitVec.extractLsb'_toNat, Nat.shiftRight_zero]

theorem ofNat_div_eq_hiNibble (b : Byte) : BitVec.ofNat 4 (b.toNat / 16) = hiNibble b := by
  rw [← toNat_hiNibble, BitVec.ofNat_toNat, BitVec.setWidth_eq]

theorem ofNat_mod_eq_loNibble (b : Byte) : BitVec.ofNat 4 (b.toNat % 16) = loNibble b := by
  rw [← toNat_loNibble, BitVec.ofNat_toNat, BitVec.setWidth_eq]

namespace Codec

variable {w : Nat} (A : Alphabet w)

/-- Two symbols for every byte (41_encoder R132). -/
@[simp] theorem length_encodeBytes (B : List Byte) : (encodeBytes A B).length = 2 * B.length := by
  induction B with
  | nil => rfl
  | cons b B ih => simp [encodeBytes, ih, Nat.mul_add]

/-- The even positions hold the symbols of the high nibbles (41_encoder R132). -/
theorem getElem?_encodeBytes_even (B : List Byte) (i : Nat) :
    (encodeBytes A B)[2 * i]? = B[i]?.map fun b => A.symbol (hiNibble b) := by
  induction B generalizing i with
  | nil => rfl
  | cons b B ih =>
    cases i with
    | zero => rfl
    | succ i => exact ih i

/-- The odd positions hold the symbols of the low nibbles (41_encoder R132). -/
theorem getElem?_encodeBytes_odd (B : List Byte) (i : Nat) :
    (encodeBytes A B)[2 * i + 1]? = B[i]?.map fun b => A.symbol (loNibble b) := by
  induction B generalizing i with
  | nil => rfl
  | cons b B ih =>
    cases i with
    | zero => rfl
    | succ i => exact ih i

end Codec

/-- Settles O34: a byte puts two symbols before the text of the rest, so byte `i` has its own at `2 * i` and `2 * i + 1`. -/
theorem encodePositions : Obligations.EncodePositions := by
  refine fun w A B => ⟨Codec.length_encodeBytes A B, fun i b hb => ⟨?_, ?_⟩⟩
  · rw [ofNat_div_eq_hiNibble, Codec.getElem?_encodeBytes_even, hb, Option.map_some]
  · rw [ofNat_mod_eq_loNibble, Codec.getElem?_encodeBytes_odd, hb, Option.map_some]

/-- A beat word below 256 selects `ENC.PUT` of the byte it is (30_encoding R84, 41_encoder R130). -/
theorem decode_encIn_ofWord_byte (b : Byte) : decode (.encIn (PinBeat.ofWord (BitVec.ofNat 9 b.toNat))) = .ok (.encPut b) := by
  have hb := b.isLt
  have hword : (BitVec.ofNat 9 b.toNat).toNat = b.toNat := by
    rw [BitVec.toNat_ofNat]
    omega
  rw [decode_encIn, Beat.ofPins_ofWord_of_lt (hword.trans_lt hb), hword, BitVec.ofNat_toNat, BitVec.setWidth_eq]

/-- Settles O7: the operation emits the symbols of the two halves, and those are the quotient and the remainder by 16. -/
theorem encPutEmitsHighThenLow : Obligations.EncPutEmitsHighThenLow := by
  intro b s
  rw [ofNat_div_eq_hiNibble, ofNat_mod_eq_loNibble]
  exact ⟨decode_encIn_ofWord_byte b, _, exec_eq_after (.encPut b) s, rfl, rfl, rfl⟩

/-- Settles O8: a beat word from 256 up reads as `END`, and the operation emits an `END` of its own. -/
theorem encEndForwardsTheEnd : Obligations.EncEndForwardsTheEnd := by
  refine ⟨fun x hx => ?_, Beat.toNat_toPins_endBeat, fun s => ⟨_, exec_eq_after .encEnd s, rfl, rfl, rfl⟩⟩
  rw [decode_encIn, Beat.ofPins_ofWord_of_ge hx]

end Sys2Proof.Machine
end

section
/-! The decoder: the joined byte as a number (30_encoding R85), what a unit does to the registers (42_decoder R150) and to the pending
nibble (R156), the words of `dec_in` (30_encoding R84), and the units of one message (42_decoder R157). -/

namespace Sys2Proof.Machine

open Sys2Proof.Machine.Codec

theorem toNat_joinNibbles (h l : Nibble) : (joinNibbles h l).toNat = h.toNat * 16 + l.toNat := by
  rw [joinNibbles, BitVec.toNat_append, ← Nat.shiftLeft_add_eq_or_of_lt l.isLt, Nat.shiftLeft_eq]

theorem ofNat_eq_joinNibbles (h l : Nibble) : BitVec.ofNat 8 (h.toNat * 16 + l.toNat) = joinNibbles h l := by
  rw [← toNat_joinNibbles, BitVec.ofNat_toNat, BitVec.setWidth_eq]

section
variable {u : TextUnit} {v : Nibble}

/-- A symbol in phase `HI` is held (42_decoder R150). -/
theorem Block.after_decPut_of_HI (hu : s2n Config.ALPHABET u = some v) {b : Block} (hp : b.phase = .HI) :
    b.after (.decPut u) = { phase := .LO, hold := v } := by
  simp [Block.after, Block.afterUnit, hu, hp]

/-- A symbol in phase `LO` ends the byte, and `DEC.hold` is not written (42_decoder R150). -/
theorem Block.after_decPut_of_LO (hu : s2n Config.ALPHABET u = some v) {b : Block} (hp : b.phase = .LO) :
    b.after (.decPut u) = { b with phase := .HI } := by
  simp [Block.after, Block.afterUnit, hu, hp]

/-- The rows of a unit that is no symbol (42_decoder R156). -/
theorem decPut_row_of_miss (hu : s2n Config.ALPHABET u = none) (p : Option Nibble) :
    pendingAfter p (.decPut u) = p ∧ decBeats p (.decPut u) = [] := by
  cases p <;> simp [pendingAfter, decBeats, hu]

/-- The row of a symbol with nothing pending (42_decoder R156). -/
theorem decPut_row_of_none (hu : s2n Config.ALPHABET u = some v) :
    pendingAfter none (.decPut u) = some v ∧ decBeats none (.decPut u) = [] := by
  simp [pendingAfter, decBeats, hu]

/-- The row of a symbol with a nibble pending (42_decoder R156). -/
theorem decPut_row_of_some (hu : s2n Config.ALPHABET u = some v) (h : Nibble) :
    pendingAfter (some h) (.decPut u) = none ∧
      decBeats (some h) (.decPut u) = [.data (BitVec.ofNat 8 (h.toNat * 16 + v.toNat))] := by
  simp [pendingAfter, decBeats, hu, ofNat_eq_joinNibbles]

end

/-- Settles O12: a state's pending nibble and beats are those of the rows. -/
theorem decoderTransitionTable : Obligations.DecoderTransitionTable := by
  intro s u
  have hpending : (s.after (.decPut u)).block.pending = pendingAfter s.block.pending (.decPut u) :=
    Block.pending_after (.decPut u) s.block
  refine ⟨⟨_, exec_eq_after (.decPut u) s, ?_⟩, ⟨_, exec_eq_after .decEnd s, rfl, rfl⟩, ⟨_, exec_eq_after .reset s, rfl, rfl⟩⟩
  rw [hpending, State.after_decOut]
  refine ⟨fun hp hu => ?_, fun v hp hu => ?_, fun h hp hu => ?_, fun h v hp hu => ?_⟩ <;> rw [hp]
  · exact decPut_row_of_miss hu none
  · exact decPut_row_of_none hu
  · exact decPut_row_of_miss hu (some h)
  · exact decPut_row_of_some hu h

/-- A beat word below `2 ^ SYMW` selects `DEC.PUT` of the unit it is (30_encoding R84, 42_decoder R150). -/
theorem decode_decIn_ofWord_unit (u : TextUnit) :
    decode (.decIn (PinBeat.ofWord (BitVec.ofNat (Config.SYMW + 1) u.toNat))) = .ok (.decPut u) := by
  have hword : (BitVec.ofNat (Config.SYMW + 1) u.toNat).toNat = u.toNat :=
    Nat.mod_eq_of_lt (u.isLt.trans (Nat.pow_lt_pow_succ Nat.one_lt_two))
  rw [decode_decIn, Beat.ofPins_ofWord_of_lt (hword.trans_lt u.isLt), hword, BitVec.ofNat_toNat, BitVec.setWidth_eq]

/-- Settles O9: the registers by phase, and the beats by the row of what is pending in that phase. -/
theorem decPutSkipsHoldsOrEmits : Obligations.DecPutSkipsHoldsOrEmits := by
  intro u s
  refine ⟨decode_decIn_ofWord_unit u, _, exec_eq_after (.decPut u) s, rfl, fun hu => ?_, fun v hv hp => ?_, fun v hv hp => ?_⟩
  · have hmiss := (s2n_eq_none_iff _ u).mpr hu
    exact ⟨Block.after_decPut_of_miss hmiss _, (decPut_row_of_miss hmiss _).2⟩
  · have hhit := (s2n_eq_some_iff _ u v).mpr hv
    rw [State.after_block, State.after_decOut, Block.after_decPut_of_HI hhit hp, Block.pending_of_HI hp]
    exact ⟨rfl, rfl, (decPut_row_of_none hhit).2⟩
  · have hhit := (s2n_eq_some_iff _ u v).mpr hv
    rw [State.after_block, State.after_decOut, Block.after_decPut_of_LO hhit hp, Block.pending_of_LO hp]
    exact ⟨rfl, rfl, (decPut_row_of_some hhit _).2⟩

/-- Settles O10: a beat word from `2 ^ SYMW` up reads as `END`, and the operation emits an `END` of its own. -/
theorem decEndDropsTheOddNibble : Obligations.DecEndDropsTheOddNibble := by
  refine ⟨fun x hx => ?_, Beat.toNat_toPins_endBeat, fun s => ⟨_, exec_eq_after .decEnd s, rfl, rfl, rfl, rfl⟩⟩
  rw [decode_decIn, Beat.ofPins_ofWord_of_ge hx]

/-- One operation more at the end of a list. -/
theorem Session.afterAll_snoc (l : List Instr) (i : Instr) (σ : Session) :
    σ.afterAll (l ++ [i]) = (σ.afterAll l).after i := by
  simp [Session.afterAll]

/-- After the units of a text, from nothing pending, DEC has emitted the bytes of the text and holds its odd nibble (42_decoder R157). -/
theorem Session.afterAll_decPut (T : List TextUnit) {σ : Session} (h : σ.machine.block.pending = none) :
    (σ.afterAll (T.map .decPut)).machine.block.pending = heldNibble Config.ALPHABET T ∧
      (σ.afterAll (T.map .decPut)).env.decOut = σ.env.decOut ++ (decodeText Config.ALPHABET T).map Beat.data := by
  induction T using List.reverseRecOn with
  | nil => exact ⟨h, (List.append_nil _).symm⟩
  | append_singleton T u ih =>
    obtain ⟨hpending, hout⟩ := ih
    rw [List.map_append, List.map_singleton, Session.afterAll_snoc]
    refine ⟨?_, ?_⟩
    · rw [Session.after_block, Block.pending_after, hpending, heldNibble_snoc_eq_pendingAfter]
    · rw [Session.after_decOut, hpending, decodeText_snoc_eq_decBeats, ← List.append_assoc, ← hout]
      rfl

/-- Settles O50: what DEC holds is the odd nibble of the text, which there is exactly when its nibbles are odd in number. -/
theorem decoderWithinAMessage : Obligations.DecoderWithinAMessage := by
  intro T σ hσ
  obtain ⟨hpending, hout⟩ := Session.afterAll_decPut T hσ
  refine ⟨_, Session.performAll_eq_afterAll _ σ, ?_, fun hodd => ?_, hout⟩
  · rw [hpending, heldNibble_eq_none_iff, countRecognized]
  · have hheld : heldNibble Config.ALPHABET T ≠ none := fun hnone =>
      Nat.one_ne_zero (hodd.symm.trans ((heldNibble_eq_none_iff _ T).mp hnone))
    obtain ⟨h, hh⟩ := Option.ne_none_iff_exists'.mp hheld
    obtain ⟨-, hlast⟩ := (heldNibble_eq_some_iff _ T h).mp hh
    exact ⟨h, hlast, hpending.trans hh⟩

end Sys2Proof.Machine
end

section
/-! `RESET` (43_system R180): the registers, the ports and the streams after it, and after a second one. -/

namespace Sys2Proof.Machine

open Sys2Proof.Safety

/-- Only the phase is written, and always to `HI` (43_system R180). -/
theorem Block.after_reset_twice (b : Block) : (b.after .reset).after .reset = b.after .reset := rfl

/-- The streams start again, and nothing emitted follows (43_system R180). -/
theorem Session.after_reset_env (σ : Session) : (σ.after .reset).env = σ.env.restart :=
  Env.collect_of_nothing rfl rfl _

theorem Env.restart_restart (e : Env) : e.restart.restart = e.restart := rfl

/-- A beat offered at an edge with `rst = 1` is still offered (43_system R180). -/
theorem Session.after_reset_offered (σ : Session) :
    (σ.after .reset).machine.ports.offered = σ.machine.ports.offered := by
  rw [Session.after, Session.record_machine, State.after_offered, encode, State.take_offer_rst]

/-- A second `RESET` finds the phase at `HI` and the streams empty, and leaves the taps (43_system R180; log 15). -/
theorem Session.sameOutside_after_reset_twice (σ : Session) :
    SameOutside (σ.after .reset) ((σ.after .reset).after .reset) := by
  refine ⟨(Block.after_reset_twice _).symm, ?_, rfl, rfl⟩
  rw [Session.after_reset_env (σ.after .reset), Session.after_reset_env, Env.restart_restart]

/-- Settles O11: what `RESET` writes does not depend on what was there before, so a second one finds its work done. -/
theorem resetStartsAgain : Obligations.ResetStartsAgain := by
  refine ⟨decode_encode .reset, fun s => ?_, fun σ => ?_⟩
  · exact ⟨_, exec_eq_after .reset s, rfl, rfl, rfl, rfl, rfl, rfl, _, exec_eq_after .reset _, Block.after_reset_twice _⟩
  · refine ⟨_, σ.perform_eq_after .reset, rfl, rfl, σ.after_reset_offered, ?_⟩
    rw [Session.after_reset_env]
    exact ⟨rfl, rfl, rfl, rfl, _, Session.perform_eq_after .reset _, σ.sameOutside_after_reset_twice⟩

end Sys2Proof.Machine
end

section
/-! The nibbles of a buffer and of a text: `encode`, `rec` and `decode` as maps between bytes, nibbles and symbols (41_encoder R132,
42_decoder R152), and the laws of 44_properties R190 to R201 that follow. -/

namespace Sys2Proof.Machine.Codec

/-! ## Bytes and nibbles -/

/-- The nibbles of a buffer, the high one of each byte first (41_encoder R132). -/
def bufferNibbles (B : List Byte) : List Nibble := B.flatMap fun b => [hiNibble b, loNibble b]

@[simp] theorem bufferNibbles_nil : bufferNibbles [] = [] := rfl

@[simp] theorem bufferNibbles_cons (b : Byte) (B : List Byte) :
    bufferNibbles (b :: B) = hiNibble b :: loNibble b :: bufferNibbles B := rfl

@[simp] theorem length_bufferNibbles (B : List Byte) : (bufferNibbles B).length = 2 * B.length := by
  simp [bufferNibbles, Nat.mul_comm]

@[simp] theorem length_pack : ∀ l : List Nibble, (pack l).length = l.length / 2
  | [] => rfl
  | [_] => by simp [pack]
  | h :: l :: rest => by
    simp only [pack, List.length_cons, length_pack rest]
    omega

/-- Packing leaves the nibbles of the bytes as they were, but for an odd last one (42_decoder R152). -/
theorem bufferNibbles_pack : ∀ l : List Nibble, bufferNibbles (pack l) = l.take (2 * (l.length / 2))
  | [] => rfl
  | [_] => by simp [pack]
  | h :: l :: rest => by
    have hlen : 2 * ((h :: l :: rest).length / 2) = 2 * (rest.length / 2) + 2 := by
      simp only [List.length_cons]
      omega
    rw [hlen]
    simp [pack, bufferNibbles_pack rest]

/-- More nibbles at the end never change a byte already packed (42_decoder R152). -/
theorem pack_prefix_pack_append : ∀ l m : List Nibble, pack l <+: pack (l ++ m)
  | [], _ => List.nil_prefix
  | [_], _ => List.nil_prefix
  | _ :: _ :: rest, m => List.cons_prefix_cons.mpr ⟨rfl, pack_prefix_pack_append rest m⟩

section
variable {w : Nat} (A : Alphabet w)

/-! ## Nibbles and symbols -/

/-- The text of a buffer is the symbols of its nibbles (41_encoder R132). -/
theorem encodeBytes_eq_map_symbol (B : List Byte) : encodeBytes A B = (bufferNibbles B).map A.symbol := by
  induction B with
  | nil => rfl
  | cons b B ih => simp [encodeBytes, n2s, romRead, ih]

/-- `rec(T)` looks every unit up and keeps the hits (42_decoder R152). -/
theorem recNibbles_eq_filterMap (T : List (BitVec w)) : recNibbles A T = T.filterMap (s2n A) := by
  induction T with
  | nil => rfl
  | cons u T ih =>
    cases hu : s2n A u with
    | none => rw [recNibbles_cons_miss A hu, List.filterMap_cons_none hu, ih]
    | some v => rw [recNibbles_cons_hit A hu, List.filterMap_cons_some hu, ih]

@[simp] theorem recNibbles_append (T1 T2 : List (BitVec w)) :
    recNibbles A (T1 ++ T2) = recNibbles A T1 ++ recNibbles A T2 := by
  simp [recNibbles_eq_filterMap]

/-- Symbols read back as their nibbles (40_alphabet_lookup R115). -/
@[simp] theorem recNibbles_map_symbol (l : List Nibble) : recNibbles A (l.map A.symbol) = l := by
  simp [recNibbles_eq_filterMap, List.filterMap_map, s2n_symbol]

theorem recNibbles_encodeBytes (B : List Byte) : recNibbles A (encodeBytes A B) = bufferNibbles B := by
  rw [encodeBytes_eq_map_symbol, recNibbles_map_symbol]

@[simp] theorem isRecognised_symbol (v : Nibble) : isRecognised A (A.symbol v) = true := by
  rw [isRecognised, s2n_symbol, Option.isSome_some]

theorem isRecognised_eq_false_iff (u : BitVec w) : isRecognised A u = false ↔ s2n A u = none := by
  rw [isRecognised, Option.isSome_eq_false_iff, Option.isNone_iff_eq_none]

/-- The symbols of the nibbles read are the recognised units of the text (40_alphabet_lookup R116). -/
theorem map_symbol_recNibbles (T : List (BitVec w)) : (recNibbles A T).map A.symbol = T.filter (isRecognised A) := by
  induction T with
  | nil => rfl
  | cons u T ih =>
    cases hu : s2n A u with
    | none => rw [recNibbles_cons_miss A hu, List.filter_cons_of_neg (by simp [isRecognised, hu]), ih]
    | some v =>
      have hv : A.symbol v = u := (s2n_eq_some_iff A u v).mp hu
      rw [recNibbles_cons_hit A hu, List.filter_cons_of_pos (by simp [isRecognised, hu]), List.map_cons, hv, ih]

/-- `rec(T)` sees the recognised units alone (44_properties R197). -/
theorem recNibbles_filter (T : List (BitVec w)) : recNibbles A (T.filter (isRecognised A)) = recNibbles A T := by
  rw [← map_symbol_recNibbles, recNibbles_map_symbol]

theorem countRecognized_le_length (T : List (BitVec w)) : countRecognized A T ≤ T.length := by
  rw [countRecognized, recNibbles_eq_filterMap]
  exact List.length_filterMap_le _ _

/-- Text with no recognised unit has no nibble. -/
theorem recNibbles_eq_nil {T : List (BitVec w)} (h : ∀ u ∈ T, isRecognised A u = false) : recNibbles A T = [] := by
  rw [recNibbles_eq_filterMap, List.filterMap_eq_nil_iff]
  exact fun u hu => (isRecognised_eq_false_iff A u).mp (h u hu)

/-! ## Texts and bytes -/

theorem length_decodeText (T : List (BitVec w)) : (decodeText A T).length = countRecognized A T / 2 := length_pack _

/-- Two symbols are the byte of their nibbles (44_properties R195). -/
theorem decodeText_pair (h l : Nibble) : decodeText A [A.symbol h, A.symbol l] = [joinNibbles h l] :=
  congrArg pack (recNibbles_map_symbol A [h, l])

/-- One symbol is no byte (44_properties R199). -/
theorem decodeText_single (v : Nibble) : decodeText A [A.symbol v] = [] := congrArg pack (recNibbles_map_symbol A [v])

/-- What is left of a text after decoding and encoding: its recognised units in pairs (44_properties R196). -/
theorem encodeBytes_decodeText (T : List (BitVec w)) :
    encodeBytes A (decodeText A T) = (T.filter (isRecognised A)).take (2 * (countRecognized A T / 2)) := by
  rw [encodeBytes_eq_map_symbol, decodeText, bufferNibbles_pack, List.map_take, map_symbol_recNibbles, countRecognized]

/-- Of a well-formed text that is all of it (30_encoding R82). -/
theorem encodeBytes_decodeText_of_wellFormed {T : List (BitVec w)} (h : wellFormedText A T = true) :
    encodeBytes A (decodeText A T) = T := by
  simp only [wellFormedText, Bool.and_eq_true, List.all_eq_true, beq_iff_eq] at h
  obtain ⟨hall, heven⟩ := h
  have hfilter : T.filter (isRecognised A) = T := List.filter_eq_self.mpr hall
  have hcount : countRecognized A T = T.length := by
    rw [countRecognized, ← List.length_map A.symbol, map_symbol_recNibbles, hfilter]
  rw [encodeBytes_decodeText, hfilter, hcount, Nat.mul_div_cancel' (Nat.dvd_of_mod_eq_zero heven), List.take_length]

theorem wellFormedText_encodeBytes (B : List Byte) : wellFormedText A (encodeBytes A B) = true := by
  simp [wellFormedText, encodeBytes_eq_map_symbol]

end
end Sys2Proof.Machine.Codec

namespace Sys2Proof.Machine

open Sys2Proof.Machine.Codec

/-- Settles O36: the nibbles of a byte come back from their symbols and join to the byte, by induction on the buffer. -/
theorem decodeOfEncodeIsTheBuffer : Obligations.DecodeOfEncodeIsTheBuffer := fun _ A B => decodeText_encodeBytes A B

/-- Settles O35: two nibbles to a byte, and at most one nibble to a unit. -/
theorem decodeLength : Obligations.DecodeLength := by
  refine fun w A => ⟨fun T => ⟨length_decodeText A T, ?_⟩, length_pack⟩
  rw [length_decodeText]
  exact Nat.div_le_div_right (countRecognized_le_length A T)

/-- Settles O37: the text is the symbols of the nibbles. -/
theorem encodedTextIsWellFormed : Obligations.EncodedTextIsWellFormed := by
  refine fun w A B => ⟨recNibbles_encodeBytes A B, ?_, wellFormedText_encodeBytes A B⟩
  rw [countRecognized, recNibbles_encodeBytes, length_bufferNibbles]

/-- Settles O38: the byte of a pair splits into the pair. -/
theorem everySymbolPairIsItsByte : Obligations.EverySymbolPairIsItsByte := by
  refine fun w A h l => ⟨by rw [decodeText_pair, ofNat_eq_joinNibbles], fun h' l' heq => ?_⟩
  rw [decodeText_pair, decodeText_pair, List.cons.injEq] at heq
  obtain ⟨hbyte, -⟩ := heq
  exact ⟨by simpa using congrArg hiNibble hbyte, by simpa using congrArg loNibble hbyte⟩

/-- Settles O39: `decode` undoes `encode`, so the one is onto and the other one-to-one; one symbol alone decodes as the empty text and is
the text of no buffer. -/
theorem encodeOfDecode : Obligations.EncodeOfDecode := by
  intro w A
  have hinv : Function.LeftInverse (decodeText A) (encodeBytes A) := decodeText_encodeBytes A
  refine ⟨fun T => encodeBytes_decodeText_of_wellFormed A, encodeBytes_decodeText A, hinv.surjective, fun hinj => ?_,
    hinv.injective, fun hsurj => ?_⟩
  · exact List.cons_ne_nil _ _ (hinj (decodeText_single A 0))
  · obtain ⟨B, hB⟩ := hsurj [A.symbol 0]
    have hlen := congrArg List.length hB
    rw [length_encodeBytes, List.length_singleton] at hlen
    omega

/-- Settles O40: `rec` is the same for a text and for its recognised units alone. -/
theorem unrecognisedUnitsAreIgnored : Obligations.UnrecognisedUnitsAreIgnored := by
  refine fun w A => ⟨fun T T' h => congrArg pack h, fun T T' h => ?_, fun B T' h => ?_⟩
  · rw [decodeText, ← recNibbles_filter, h, recNibbles_filter, decodeText]
  · rw [decodeText, ← recNibbles_filter, h]
    exact decodeText_encodeBytes A B

/-- Settles O41: before the last recognised unit the nibbles pair up, so it adds no byte. -/
theorem oddTailIsDropped : Obligations.OddTailIsDropped := by
  intro w A T k hcount
  refine ⟨by rw [length_decodeText]; omega, ?_⟩
  rintro T1 T2 u rfl hu hT2
  obtain ⟨v, hv⟩ := Option.isSome_iff_exists.mp hu
  have hrec : recNibbles A (T1 ++ u :: T2) = recNibbles A T1 ++ [v] := by
    rw [recNibbles_append, recNibbles_cons_hit A hv, recNibbles_eq_nil A hT2]
  have heven : (recNibbles A T1).length % 2 = 0 := by
    rw [countRecognized, hrec, List.length_append, List.length_singleton] at hcount
    omega
  rw [decodeText, hrec, pack_snoc_of_even heven, decodeText, recNibbles_append, recNibbles_eq_nil A hT2, List.append_nil]

/-- Settles O43: `rec` splits anywhere and `pack` after whole pairs; two symbols make a byte that neither makes alone. -/
theorem concatenation : Obligations.Concatenation := by
  intro w A
  refine ⟨encodeBytes_append A, recNibbles_append A, fun T1 T2 heven => ?_, ⟨[A.symbol 0], [A.symbol 0], ?_, ?_⟩, fun B1 B2 => ?_⟩
  · rw [decodeText, recNibbles_append, pack_append_of_even _ heven, decodeText, decodeText]
  · exact congrArg (List.length · % 2) (recNibbles_map_symbol A [0])
  · rw [List.singleton_append, decodeText_pair, decodeText_single]
    exact List.cons_ne_nil _ _
  · rw [← encodeBytes_append, decodeText_encodeBytes]

/-- Settles O44: `encode` and `rec` split anywhere, and `pack` goes on from the bytes it has. -/
theorem unfinishedOutputIsABeginning : Obligations.UnfinishedOutputIsABeginning := by
  refine fun w A => ⟨fun B1 B2 => ?_, fun T1 T2 => ?_⟩
  · rw [encodeBytes_append]
    exact List.prefix_append _ _
  · rw [decodeText, decodeText, recNibbles_append]
    exact pack_prefix_pack_append _ _

/-- Settles O33: the halves as numbers, and the join as the inverse of the split. -/
theorem splitAndJoinAreInverse : Obligations.SplitAndJoinAreInverse := by
  refine ⟨fun b => ⟨toNat_hiNibble b, toNat_loNibble b, joinNibbles_hiNibble_loNibble b⟩,
    fun h l => ⟨toNat_joinNibbles h l, hiNibble_joinNibbles h l, loNibble_joinNibbles h l⟩, ?_⟩
  rw [Function.bijective_iff_has_inverse]
  exact ⟨fun p => joinNibbles p.1 p.2, joinNibbles_hiNibble_loNibble,
    fun p => Prod.ext (hiNibble_joinNibbles _ _) (loNibble_joinNibbles _ _)⟩

/-- Settles O42: at most one nibble is half a byte at most. -/
theorem emptyInputGivesEmptyOutput : Obligations.EmptyInputGivesEmptyOutput := by
  refine fun w A => ⟨rfl, rfl, fun T h => List.eq_nil_of_length_eq_zero ?_⟩
  rw [length_decodeText]
  omega

end Sys2Proof.Machine
end

section
/-! Whole messages through the block: the operations of each unit in a row (44_properties R202, R203), and the loop from `enc_in` over
the wire to `dec_out` (R204). -/

namespace Sys2Proof.Machine

open Sys2Proof.Machine.Codec

/-! ## One unit at a time -/

/-- The bytes of a message put out the symbols of `encode(B)` and touch no register (44_properties R202). -/
theorem Session.afterAll_encPut (B : List Byte) (σ : Session) :
    (σ.afterAll (B.map .encPut)).env.encOut = σ.env.encOut ++ (encodeBytes Config.ALPHABET B).map Beat.data ∧
      (σ.afterAll (B.map .encPut)).machine.block = σ.machine.block := by
  induction B using List.reverseRecOn with
  | nil => exact ⟨(List.append_nil _).symm, rfl⟩
  | append_singleton B b ih =>
    obtain ⟨hout, hblock⟩ := ih
    rw [List.map_append, List.map_singleton, Session.afterAll_snoc]
    refine ⟨?_, hblock⟩
    rw [encodeBytes_append, List.map_append, ← List.append_assoc, ← hout]
    rfl

/-- Settles O48: the symbols of the bytes, and the `END` of the last operation. -/
theorem encodeOpsComputeEncode : Obligations.EncodeOpsComputeEncode := by
  intro B σ
  obtain ⟨hout, hblock⟩ := σ.afterAll_encPut B
  refine ⟨_, σ.performAll_eq_afterAll _, ?_, ?_⟩ <;> rw [encodeOps, Session.afterAll_snoc]
  · rw [messageBeats, ← List.append_assoc, ← hout]
    rfl
  · exact hblock

/-- Settles O49: the bytes of the units, and the `END` of the last operation, which drops what is held. -/
theorem decodeOpsComputeDecode : Obligations.DecodeOpsComputeDecode := by
  intro T σ hphase
  obtain ⟨-, hout⟩ := σ.afterAll_decPut T (Block.pending_of_HI hphase)
  refine ⟨_, σ.performAll_eq_afterAll _, ?_, ?_⟩ <;> rw [decodeOps, Session.afterAll_snoc]
  · rw [messageBeats, ← List.append_assoc, ← hout]
    rfl
  · rfl

/-! ## The operation of a beat -/

/-- The operation that a beat on `enc_in` selects (30_encoding R84). -/
def encOpOf : Beat Byte → Instr
  | .data b => .encPut b
  | .endBeat => .encEnd

/-- The operation that a beat on `dec_in` selects (30_encoding R84). -/
def decOpOf : Beat TextUnit → Instr
  | .data u => .decPut u
  | .endBeat => .decEnd

theorem decode_encIn_eq_encOpOf (b : PinBeat 8) : decode (.encIn b) = .ok (encOpOf (Beat.ofPins b)) := by
  rw [decode_encIn]
  cases Beat.ofPins b <;> rfl

theorem encode_decOpOf (b : Beat TextUnit) : encode (decOpOf b) = .decIn b.toPins := by
  cases b <;> rfl

theorem isEncOp_encOpOf (b : Beat Byte) : isEncOp (encOpOf b) = true := by
  cases b <;> rfl

theorem isDecOp_decOpOf (b : Beat TextUnit) : isDecOp (decOpOf b) = true := by
  cases b <;> rfl

/-- One beat more on `enc_in`: what its operation emits is what it adds to the encoded stream (20_memory R60). -/
theorem Codec.encodeStream_snoc (l : List (Beat Byte)) (b : Beat Byte) :
    encodeStream Config.ALPHABET (l ++ [b]) = encodeStream Config.ALPHABET l ++ encBeats (encOpOf b) := by
  cases b with
  | data b => exact encodeStream_snoc_data _ l b
  | endBeat => exact encodeStream_snoc_end _ l

/-- The nibble DEC holds after a stream (42_decoder R157). -/
def Codec.heldAfter (l : List (Beat TextUnit)) : Option Nibble := heldNibble Config.ALPHABET (messages l).2

/-- One beat more on `dec_in`: what its operation emits is what it adds to the decoded stream (20_memory R60). -/
theorem Codec.decodeStream_snoc (l : List (Beat TextUnit)) (b : Beat TextUnit) :
    decodeStream Config.ALPHABET (l ++ [b]) = decodeStream Config.ALPHABET l ++ decBeats (heldAfter l) (decOpOf b) := by
  cases b with
  | data u => exact decodeStream_snoc_data l u
  | endBeat => exact decodeStream_snoc_end _ l

/-- One beat more on `dec_in`: what its operation leaves pending is what the stream then leaves held (42_decoder R157). -/
theorem Codec.heldAfter_snoc (l : List (Beat TextUnit)) (b : Beat TextUnit) :
    heldAfter (l ++ [b]) = pendingAfter (heldAfter l) (decOpOf b) := by
  cases b with
  | data u => rw [heldAfter, messages_snoc_data, heldNibble_snoc_eq_pendingAfter]; rfl
  | endBeat => rw [heldAfter, messages_snoc_end]; rfl

/-- Beats already put out stay as they are when more beats come in (44_properties R201). -/
theorem Codec.decodeStream_prefix {c l : List (Beat TextUnit)} (h : c <+: l) :
    decodeStream Config.ALPHABET c <+: decodeStream Config.ALPHABET l := by
  obtain ⟨r, rfl⟩ := h
  induction r using List.reverseRecOn with
  | nil => rw [List.append_nil]
  | append_singleton r b ih =>
    rw [← List.append_assoc, decodeStream_snoc]
    exact ih.trans (List.prefix_append _ _)

/-- An encoded stream decodes to the stream it was made of (44_properties R193, R204). -/
theorem Codec.decodeStream_encodeStream (l : List (Beat Byte)) :
    decodeStream Config.ALPHABET (encodeStream Config.ALPHABET l) = l := by
  have hid : decodeText Config.ALPHABET ∘ encodeBytes Config.ALPHABET = id := funext (decodeText_encodeBytes _)
  rw [decodeStream, encodeStream, messages_streamOf, List.map_map, hid, List.map_id, decodeText_encodeBytes, Prod.mk.eta,
    streamOf_messages]

/-- Nothing is held after an encoded stream: a byte is two symbols (44_properties R194). -/
theorem Codec.heldAfter_encodeStream (l : List (Beat Byte)) : heldAfter (encodeStream Config.ALPHABET l) = none := by
  rw [heldAfter, encodeStream, messages_streamOf, heldNibble_eq_none_iff, recNibbles_encodeBytes, length_bufferNibbles,
    Nat.mul_mod_right]

/-! ## The loop -/

/-- The moves of the loop: a beat for ENC, a transfer on the wire, or a unit for DEC that is no symbol (44_properties R204). -/
def Slot.IsLoopMove (x : Slot) : Prop :=
  (∃ b, x = .offer (.encIn b)) ∨ x = .encToDec ∨
    ∃ b, x = .offer (.decIn b) ∧ b.isEnd = 0 ∧ isRecognised Config.ALPHABET b.payload = false

/-- `ρ` is what the loop makes of `σ` when the beats `fed` have come on `enc_in` and the wire has carried the beats `carried` of what ENC
made of them (44_properties R204; log 12). -/
structure Session.IsLoopedTo (σ : Session) (fed : List (Beat Byte)) (carried : List (Beat TextUnit)) (ρ : Session) : Prop where
  /-- The wire carries only what was emitted (20_memory R61). -/
  carried_prefix : carried <+: encodeStream Config.ALPHABET fed
  /-- ENC has encoded what came in (20_memory R60). -/
  encOut : ρ.env.encOut = σ.env.encOut ++ encodeStream Config.ALPHABET fed
  /-- And the wire has all of it on record (log 12). -/
  encSent : ρ.env.encSent = σ.env.encSent ++ encodeStream Config.ALPHABET fed
  /-- Nothing was waiting on the wire at the start (log 12). -/
  encTaken : ρ.env.encTaken = σ.env.encSent.length + carried.length
  /-- DEC has decoded what the wire carried (20_memory R60). -/
  decOut : ρ.env.decOut = σ.env.decOut ++ decodeStream Config.ALPHABET carried
  /-- DEC holds what R157 says. -/
  pending : ρ.machine.block.pending = heldAfter carried

/-- Presenting an input that selects an operation does to the registers and to the record what that operation does (30_encoding R84). -/
theorem Session.present_eq_after {x : Input} {i : Instr} (h : decode x = .ok i) (σ : Session) :
    ∃ τ, σ.present x = .next τ ∧ τ.machine.block = (σ.after i).machine.block ∧ τ.env = (σ.after i).env := by
  refine ⟨_, Session.present_of_step ((step_offer h σ.machine).trans (exec_eq_after i _)), rfl, ?_⟩
  rw [Session.record_env, ← Env.accept_encode h]
  rfl

namespace Session.IsLoopedTo

variable {σ ρ : Session} {fed : List (Beat Byte)} {carried : List (Beat TextUnit)}

/-- The loop at its start. -/
theorem start (hphase : σ.machine.block.phase = .HI) (hwire : σ.env.encTaken = σ.env.encSent.length) :
    σ.IsLoopedTo [] [] σ where
  carried_prefix := List.prefix_rfl
  encOut := (List.append_nil _).symm
  encSent := (List.append_nil _).symm
  encTaken := hwire
  decOut := (List.append_nil _).symm
  pending := Block.pending_of_HI hphase

/-- It reads the registers and the record alone. -/
theorem congr {τ : Session} (h : σ.IsLoopedTo fed carried ρ) (hblock : τ.machine.block = ρ.machine.block)
    (henv : τ.env = ρ.env) : σ.IsLoopedTo fed carried τ where
  carried_prefix := h.carried_prefix
  encOut := henv ▸ h.encOut
  encSent := henv ▸ h.encSent
  encTaken := henv ▸ h.encTaken
  decOut := henv ▸ h.decOut
  pending := hblock ▸ h.pending

/-- ENC takes one beat more. -/
theorem feed (h : σ.IsLoopedTo fed carried ρ) (b : Beat Byte) : σ.IsLoopedTo (fed ++ [b]) carried (ρ.after (encOpOf b)) := by
  obtain ⟨p, hp⟩ := encode_of_encOp (isEncOp_encOpOf b)
  have hdec := decBeats_of_encOp (isEncOp_encOpOf b) ρ.machine.block.pending
  have hblock := Block.after_of_encOp (isEncOp_encOpOf b) ρ.machine.block
  exact {
    carried_prefix := by
      rw [encodeStream_snoc]
      exact h.carried_prefix.trans (List.prefix_append _ _)
    encOut := by simp [hp, h.encOut, encodeStream_snoc]
    encSent := by simp [h.encSent, encodeStream_snoc]
    encTaken := by simp [h.encTaken]
    decOut := by simp [hp, hdec, h.decOut]
    pending := by simp [hblock, h.pending] }

/-- DEC takes a unit that is no symbol. -/
theorem skip (h : σ.IsLoopedTo fed carried ρ) {u : TextUnit} (hu : s2n Config.ALPHABET u = none) :
    σ.IsLoopedTo fed carried (ρ.after (.decPut u)) := by
  obtain ⟨-, hdec⟩ := decPut_row_of_miss hu ρ.machine.block.pending
  exact {
    carried_prefix := h.carried_prefix
    encOut := by simp [encode, encBeats, h.encOut]
    encSent := by simp [encBeats, h.encSent]
    encTaken := by simp [h.encTaken]
    decOut := by simp [encode, hdec, h.decOut]
    pending := by simp [Block.after_decPut_of_miss hu, h.pending] }

/-- DEC takes the next beat from the wire. -/
theorem carry (h : σ.IsLoopedTo fed carried ρ) {b : Beat TextUnit} (hb : carried ++ [b] <+: encodeStream Config.ALPHABET fed) :
    ∃ τ, ρ.move .encToDec = .next τ ∧ σ.IsLoopedTo fed (carried ++ [b]) τ := by
  obtain ⟨r, hr⟩ := hb
  have hnext : ρ.env.encSent[ρ.env.encTaken]? = some b := by
    rw [h.encSent, h.encTaken, ← hr]
    simp
  refine ⟨_, (Session.move_encToDec_of_some (encode_decOpOf b) hnext).trans (Session.perform_eq_after _ _), ?_⟩
  have henc := encBeats_of_decOp (isDecOp_decOpOf b)
  exact {
    carried_prefix := ⟨r, hr⟩
    encOut := by simp [encode_decOpOf, henc, h.encOut]
    encSent := by simp [henc, h.encSent]
    encTaken := by simp [h.encTaken, Nat.add_assoc]
    decOut := by simp [encode_decOpOf, h.decOut, h.pending, decodeStream_snoc]
    pending := by simp [Block.pending_after, h.pending, heldAfter_snoc] }

/-- The wire has carried all that was emitted, or has a next beat. -/
theorem wire_cases (h : σ.IsLoopedTo fed carried ρ) :
    ρ.env.encSent[ρ.env.encTaken]? = none ∨ ∃ b, carried ++ [b] <+: encodeStream Config.ALPHABET fed := by
  obtain ⟨r, hr⟩ := h.carried_prefix
  cases r with
  | nil =>
    rw [h.encSent, h.encTaken, ← hr]
    simp
  | cons b r => exact .inr ⟨b, r, (List.append_cons _ _ _).symm.trans hr⟩

/-- Every move of the loop keeps it one. -/
theorem move (h : σ.IsLoopedTo fed carried ρ) {x : Slot} (hx : x.IsLoopMove) :
    ∃ c τ, ρ.move x = .next τ ∧ σ.IsLoopedTo (fed ++ x.encBeat.toList) c τ := by
  obtain ⟨b, rfl⟩ | rfl | ⟨b, rfl, hdata, hmiss⟩ := hx
  · obtain ⟨τ, hτ, hblock, henv⟩ := ρ.present_eq_after (decode_encIn_eq_encOpOf b)
    exact ⟨carried, τ, hτ, (h.feed _).congr hblock henv⟩
  · rw [Slot.encBeat_encToDec, Option.toList_none, List.append_nil]
    obtain hnone | ⟨b, hb⟩ := h.wire_cases
    · exact ⟨carried, ρ, Session.move_encToDec_of_none hnone, h⟩
    · exact ⟨_, h.carry hb⟩
  · rw [Slot.encBeat_decIn, Option.toList_none, List.append_nil]
    have hdec : decode (.decIn b) = .ok (.decPut b.payload) := by simp [decode_decIn, Beat.ofPins, hdata]
    obtain ⟨τ, hτ, hblock, henv⟩ := ρ.present_eq_after hdec
    exact ⟨carried, τ, hτ, (h.skip ((isRecognised_eq_false_iff _ _).mp hmiss)).congr hblock henv⟩

/-- Every schedule of the loop. -/
theorem play {l : List Slot} (hl : ∀ x ∈ l, x.IsLoopMove) : ∀ {fed carried ρ}, σ.IsLoopedTo fed carried ρ →
    ∃ c τ, ρ.play l = .next τ ∧ σ.IsLoopedTo (fed ++ l.filterMap Slot.encBeat) c τ := by
  induction l with
  | nil => exact fun h => ⟨_, _, rfl, by simpa using h⟩
  | cons x l ih =>
    intro fed carried ρ h
    rw [List.forall_mem_cons] at hl
    obtain ⟨hx, hl⟩ := hl
    obtain ⟨c, ρ', hmove, h⟩ := h.move hx
    obtain ⟨c, τ, hplay, h⟩ := ih hl h
    refine ⟨c, τ, (Session.play_cons hmove l).trans hplay, ?_⟩
    cases hb : x.encBeat <;> simpa [hb] using h

/-- As many transfers as there are beats waiting carry them all. -/
theorem drain (r : List (Beat TextUnit)) : ∀ {carried ρ}, σ.IsLoopedTo fed carried ρ →
    carried ++ r = encodeStream Config.ALPHABET fed →
    ∃ τ, ρ.play (List.replicate r.length .encToDec) = .next τ ∧ σ.IsLoopedTo fed (encodeStream Config.ALPHABET fed) τ := by
  induction r with
  | nil => exact fun h hr => ⟨_, rfl, by rwa [← hr, List.append_nil]⟩
  | cons b r ih =>
    intro carried ρ h hr
    rw [List.append_cons] at hr
    obtain ⟨ρ', hmove, h⟩ := h.carry ⟨r, hr⟩
    obtain ⟨τ, hplay, h⟩ := ih h hr
    exact ⟨τ, (Session.play_cons hmove _).trans hplay, h⟩

/-- What has come out is a beginning of what has gone in. -/
theorem decOut_beginning (h : σ.IsLoopedTo fed carried ρ) : ∃ d, d <+: fed ∧ ρ.env.decOut = σ.env.decOut ++ d := by
  have hprefix := decodeStream_prefix h.carried_prefix
  rw [decodeStream_encodeStream] at hprefix
  exact ⟨_, hprefix, h.decOut⟩

/-- With all carried, all that went in has come out, and DEC waits for a high nibble. -/
theorem decOut_all (h : σ.IsLoopedTo fed (encodeStream Config.ALPHABET fed) ρ) :
    ρ.env.decOut = σ.env.decOut ++ fed ∧ ρ.machine.block.phase = .HI := by
  refine ⟨by rw [h.decOut, decodeStream_encodeStream], ?_⟩
  rw [← Block.pending_eq_none_iff, h.pending, heldAfter_encodeStream]

/-- The wire's place tells when it has carried all. -/
theorem carried_eq_of_wire_empty (h : σ.IsLoopedTo fed carried ρ) (hwire : ρ.env.encTaken = ρ.env.encSent.length) :
    carried = encodeStream Config.ALPHABET fed := by
  refine h.carried_prefix.eq_of_length ?_
  rw [h.encTaken, h.encSent, List.length_append] at hwire
  omega

end Session.IsLoopedTo

/-- Settles O51: every move keeps `dec_out` the decoding of the beats carried, and the beats emitted decode to the messages. -/
theorem loopBackGivesTheMessageBack : Obligations.LoopBackGivesTheMessageBack := by
  intro m σ l hphase hwire hfed hl
  obtain ⟨carried, τ, hplay, h⟩ := (Session.IsLoopedTo.start hphase hwire).play hl
  rw [List.nil_append, hfed] at h
  refine ⟨⟨τ, hplay, ?_, h.decOut_beginning, fun hempty => ?_⟩, ?_⟩
  · rw [h.encOut, encodeStream, messages_streamOf]
  · obtain rfl := h.carried_eq_of_wire_empty hempty
    exact h.decOut_all
  · obtain ⟨r, hr⟩ := h.carried_prefix
    obtain ⟨ρ, hdrain, h⟩ := h.drain r hr
    exact ⟨r.length, ρ, (Session.play_append _ _ hplay).trans hdrain, h.decOut_all⟩

end Sys2Proof.Machine
end

section
/-! The exceptions that the block does not raise (60_exceptions R220), its two units at one edge (R224 (b)), and a text that is closed
(R234). -/

namespace Sys2Proof.Machine

open Sys2Proof.Machine.Codec Sys2Proof.Safety

/-- Every schedule answers a session. -/
theorem Session.play_total (l : List Slot) : ∀ σ : Session, ∃ τ, σ.play l = .next τ := by
  induction l with
  | nil => exact fun σ => ⟨σ, σ.play_nil⟩
  | cons x l ih =>
    intro σ
    obtain ⟨ρ, hρ⟩ := σ.move_total x
    obtain ⟨τ, hτ⟩ := ih ρ
    exact ⟨τ, (Session.play_cons hρ l).trans hτ⟩

/-- Settles O21: operations, steps and moves answer a next state, so a schedule never stops early. -/
theorem everyStepAnswersANextState : Obligations.EveryStepAnswersANextState :=
  ⟨exec_total, step_total, Session.play_total⟩

/-- Settles O32: an empty unfinished text holds no nibble and decodes to no byte. -/
theorem closedTextLeavesNothingBehind : Obligations.ClosedTextLeavesNothingBehind := by
  intro σ h hclosed
  obtain ⟨hout, hpending⟩ := h
  rw [hclosed, heldNibble_nil, Block.pending_eq_none_iff] at hpending
  have hmessages : messages σ.env.decOut = ((messages σ.env.decIn).1.map (decodeText Config.ALPHABET), []) := by
    rw [hout, decodeStream, messages_streamOf, hclosed]
    rfl
  rw [hmessages]
  exact ⟨hpending, rfl, rfl⟩

/-- The levels at the taps (10_state R31). -/
def Session.tapPart (σ : Session) : Nibble × TextUnit := (σ.machine.ports.n2sV, σ.machine.ports.s2nU)

/-- On the levels at the taps only the lookups and the code rows act (20_memory R57; log 15). -/
theorem Session.tapPart_isActedOnBy : Session.IsActedOnBy Session.tapPart isTapOp where
  congr i σ τ h := by
    simp only [Session.tapPart, Prod.mk.injEq] at h
    obtain ⟨hn2s, hs2n⟩ := h
    simp [Session.tapPart, Session.after, hn2s, hs2n]
  skip {i} hi σ := by
    cases i with
    | encPut _ | encEnd | decPut _ | decEnd | reset => rfl
    | _ => simp [isTapOp, placeOf] at hi

/-- Settles O53: each unit has the one operation of its own in either order, and neither operation acts on the taps. -/
theorem unitsCommute : Obligations.UnitsCommute := by
  intro i j σ hi hj
  have hplace : placeOf i = .enc ∧ placeOf j = .dec := ⟨by simpa [isEncOp] using hi, by simpa [isDecOp] using hj⟩
  obtain ⟨hblock, henv⟩ := Session.eq_of_parts_eq
    (Session.encPart_isActedOnBy.afterAll_eq (l := [i, j]) (m := [j, i]) (by simp [isEncOp, isResetOp, hplace]) σ)
    (Session.decPart_isActedOnBy.afterAll_eq (l := [i, j]) (m := [j, i]) (by simp [isDecOp, isResetOp, hplace]) σ)
  have htaps := Session.tapPart_isActedOnBy.afterAll_eq (l := [i, j]) (m := [j, i]) (by simp [isTapOp, hplace]) σ
  simp only [Session.tapPart, Prod.mk.injEq] at htaps
  exact ⟨_, _, σ.performAll_eq_afterAll _, σ.performAll_eq_afterAll _, hblock, henv, htaps⟩

end Sys2Proof.Machine
end

section
/-! A beat that stands offered at edges with `rst = 1` (43_system R180, 60_exceptions R224 (a)). -/

namespace Sys2Proof.Machine

open Sys2Proof.Safety

/-- `τ` is `σ` after one or more edges with `rst = 1` (43_system R180); the taps and the model's counter are not spoken of. -/
structure Session.IsResetOf (σ τ : Session) : Prop where
  block : τ.machine.block = σ.machine.block.after .reset
  encOut : τ.machine.ports.encOut = []
  decOut : τ.machine.ports.decOut = []
  rst : τ.machine.ports.rst = none
  offered : τ.machine.ports.offered = σ.machine.ports.offered
  env : τ.env = σ.env.restart

namespace Session.IsResetOf

variable {σ τ : Session}

/-- One edge. -/
theorem after_reset (σ : Session) : σ.IsResetOf (σ.after .reset) where
  block := rfl
  encOut := rfl
  decOut := rfl
  rst := rfl
  offered := σ.after_reset_offered
  env := σ.after_reset_env

/-- One edge more finds its work done. -/
theorem reset_again (h : σ.IsResetOf τ) : σ.IsResetOf (τ.after .reset) where
  block := by rw [Session.after_block, h.block, Block.after_reset_twice]
  encOut := rfl
  decOut := rfl
  rst := rfl
  offered := τ.after_reset_offered.trans h.offered
  env := by rw [Session.after_reset_env, h.env, Env.restart_restart]

theorem afterAll_resets (σ : Session) (n : Nat) : σ.IsResetOf (σ.afterAll (List.replicate (n + 1) .reset)) := by
  induction n with
  | zero => exact after_reset σ
  | succ n ih =>
    rw [List.replicate_succ', Session.afterAll_snoc]
    exact ih.reset_again

/-- Both streams of ENC are empty. -/
theorem encStreamInv (h : σ.IsResetOf τ) : EncStreamInv τ := by
  rw [EncStreamInv, h.env]
  rfl

/-- Both streams of DEC are empty, and it waits for a high nibble. -/
theorem decStreamInv (h : σ.IsResetOf τ) : DecStreamInv τ := by
  rw [DecStreamInv, h.env, h.block]
  exact ⟨rfl, rfl⟩

end Session.IsResetOf

/-- Edges with `rst = 1` are as many operations `RESET` (30_encoding R84). -/
theorem Session.play_resets (σ : Session) (n : Nat) :
    σ.play (List.replicate n (.offer (.rst 1))) = .next (σ.afterAll (List.replicate n .reset)) := by
  rw [← Session.performAll_eq_afterAll, Session.performAll, List.map_replicate]
  rfl

/-- Without `rst` a step takes what is offered, and nothing is presented after it (10_state R33). -/
theorem State.presented_of_step {s t : State} (hrst : s.ports.rst = none) (h : step s = .next t) : t.presented = none := by
  rw [step_eq_operation] at h
  obtain rfl := Host.Outcome.next.inj h
  cases s.operation <;> simp [State.presented, hrst]

/-- Without `rst` an edge puts on record the input that is offered (10_state R33). -/
theorem Session.edge_of_offered {σ : Session} {x : Input} (hrst : σ.machine.ports.rst = none)
    (hx : σ.machine.ports.offered = some x) : ∃ t, σ.edge = .next (σ.record x t) ∧ t.presented = none := by
  have hpresented : σ.machine.presented = some x := (σ.machine.presented_of_no_rst hrst).trans hx
  obtain ⟨t, ht⟩ := step_total σ.machine
  exact ⟨t, by simp [Session.edge, ht, hpresented], State.presented_of_step hrst ht⟩

/-- A beat put on the pins stands offered (10_state R31). -/
theorem Session.drive_offered {x : Input} (hx : resetLevel x = none) (σ : Session) :
    (σ.drive x).machine.ports.offered = some x := by
  simp [hx]

/-- Settles O25: the edges are `RESET`s, which leave the offer alone, and the next edge takes it from empty streams. -/
theorem resetLeavesTheOfferedBeat : Obligations.ResetLeavesTheOfferedBeat := by
  intro σ x n hx
  have hlevel : resetLevel x = none := by obtain ⟨b, rfl⟩ | ⟨b, rfl⟩ := hx <;> rfl
  have h := Session.IsResetOf.afterAll_resets (σ.drive x) n
  have hoffered := h.offered.trans (σ.drive_offered hlevel)
  obtain ⟨t, hedge, hpresented⟩ := Session.edge_of_offered h.rst hoffered
  refine ⟨_, (Session.play_cons rfl _).trans (Session.play_resets (σ.drive x) (n + 1)), congrArg Block.phase h.block,
    (congrArg Block.hold h.block :), h.encOut, h.decOut, h.env, hoffered, _, hedge, hpresented, ?_, ?_,
    encStreamInv_isKept.edge h.encStreamInv hedge, decStreamInv_isKept.edge h.decStreamInv hedge⟩
  · rintro b rfl
    simp [h.env]
  · rintro b rfl
    simp [h.env]

end Sys2Proof.Machine
end

section
/-! `RESET` and the registers before it (70_reset R250 to R252): the frame, the invariants after it, and what reads the registers. -/

namespace Sys2Proof.Machine

open Sys2Proof.Machine.Codec Sys2Proof.Safety

/-- The output streams are empty, which is the last part of any record (43_system R180; log 14). -/
theorem Session.IsResetOf.sentInv {σ τ : Session} (h : σ.IsResetOf τ) : SentInv τ := by
  rw [SentInv, h.env]
  exact ⟨List.nil_suffix, List.nil_suffix⟩

/-- Settles O26: the streams and records are empty, the wires stand at their start, and the phase is `HI`. -/
theorem resetStateMeetsTheInvariants : Obligations.ResetStateMeetsTheInvariants :=
  ⟨rfl, rfl, rfl, rfl, ⟨rfl, rfl⟩, ⟨Nat.le_refl 0, Nat.le_refl 0⟩, ⟨List.nil_suffix, List.nil_suffix⟩, rfl, rfl, rfl, rfl⟩

/-- Settles O27: after `RESET` the streams are empty; the wires' invariant is one that every operation keeps. -/
theorem resetEstablishesTheInvariants : Obligations.ResetEstablishesTheInvariants := by
  intro σ
  have h := Session.IsResetOf.after_reset σ
  exact ⟨_, σ.perform_eq_after .reset, h.encStreamInv, h.decStreamInv, h.sentInv, wireInv_isKept.after .reset⟩

theorem encode_encOpOf (b : Beat Byte) : encode (encOpOf b) = .encIn b.toPins := by
  cases b <;> rfl

/-- Settles O16: `RESET` writes the phase and restarts the streams, and a wire's next beat is found in the record. -/
theorem resetFrame : Obligations.ResetFrame := by
  refine ⟨fun s t h => ?_, fun σ τ h => ?_⟩
  · obtain rfl := exec_next_unique (exec_eq_after .reset s) h
    exact ⟨rfl, rfl, rfl, rfl, rfl, rfl, rfl⟩
  · obtain rfl := Host.Outcome.next.inj ((σ.perform_eq_after .reset).symm.trans h)
    refine ⟨σ.after_reset_offered, σ.after_reset_env, fun b hb => ?_, fun b hb => ?_⟩
    · rw [← encode_decOpOf]
      exact Session.move_encToDec_of_some (encode_decOpOf b) (by simpa [encBeats] using hb)
    · rw [← encode_encOpOf]
      exact Session.move_decToEnc_of_some (encode_encOpOf b) (by simpa [decBeats] using hb)

/-- What an operation other than `DEC.PUT` emits on `dec_out` does not depend on what is pending (10_state R22). -/
theorem decBeats_of_ne_decPut {i : Instr} (h : ∀ u, i ≠ .decPut u) (p q : Option Nibble) : decBeats p i = decBeats q i := by
  cases i with
  | decPut u => exact absurd rfl (h u)
  | _ => rfl

/-- An operation of ENC or at the taps writes no register (10_state R23, 20_memory R57). -/
theorem Block.after_of_encOp_or_tapOp {i : Instr} (h : isEncOp i || isTapOp i) (b : Block) : b.after i = b := by
  obtain henc | htap := Bool.or_eq_true_iff.mp h
  · exact Block.after_of_encOp henc b
  · obtain ⟨hblock, -⟩ := after_of_tapOp htap
    exact hblock b

/-- Settles O55: the ports after an operation depend on the registers by its beats on `dec_out` alone. -/
theorem onlyDecPutReadsTheRegisters : Obligations.OnlyDecPutReadsTheRegisters := by
  intro i s b hi
  refine ⟨_, _, exec_eq_after i s, exec_eq_after i _, ?_, fun h => ?_, ?_⟩
  · rw [State.after, State.after, Ports.after, Ports.after, decBeats_of_ne_decPut hi]
  · exact ⟨Block.after_of_encOp_or_tapOp h _, Block.after_of_encOp_or_tapOp h _⟩
  · rintro (rfl | rfl) <;> exact ⟨rfl, rfl⟩

end Sys2Proof.Machine
end

section
/-! A text that is not closed before the next begins: no `DEC.END` between them (70_reset R254), or `RESET` (R259). -/

namespace Sys2Proof.Machine

open Sys2Proof.Machine.Codec

/-- The last nibble of an odd beginning pairs with the first of the rest (42_decoder R152). -/
theorem Codec.pack_append_of_odd {l : List Nibble} {h : Nibble} (hl : l.length % 2 = 1) (hh : l.getLast? = some h)
    (m : List Nibble) : pack (l ++ m) = pack l ++ pack (h :: m) := by
  obtain ⟨l, rfl⟩ := List.getLast?_eq_some_iff.mp hh
  have heven : l.length % 2 = 0 := by
    rw [List.length_append, List.length_singleton] at hl
    omega
  rw [pack_snoc_of_even heven, List.append_assoc, pack_append_of_even _ heven, List.singleton_append]

theorem decodeOps_append (T1 T2 : List TextUnit) : decodeOps (T1 ++ T2) = T1.map .decPut ++ decodeOps T2 := by
  simp [decodeOps]

/-- Settles O57: for DEC the two texts are one, and the held nibble is the last of the odd beginning. -/
theorem missingEndPairsAcrossTexts : Obligations.MissingEndPairsAcrossTexts := by
  intro T1 T2 h σ hphase hodd hlast
  obtain ⟨τ, hτ, hout, -⟩ := decodeOpsComputeDecode (T1 ++ T2) σ hphase
  rw [decodeOps_append] at hτ
  refine ⟨τ, hτ, ?_⟩
  rw [hout, decodeText, recNibbles_append, pack_append_of_odd hodd hlast, decodeText]

theorem Session.afterAll_append (l m : List Instr) (σ : Session) : σ.afterAll (l ++ m) = (σ.afterAll l).afterAll m :=
  List.foldl_append

/-- What operations of DEC add to the stream of `dec_out` they add to its record (70_reset R252; log 14). -/
theorem Session.afterAll_decOps_adds (l : List Instr) (hl : ∀ i ∈ l, isDecOp i = true) (σ : Session) :
    ∃ e, (σ.afterAll l).env.decOut = σ.env.decOut ++ e ∧ (σ.afterAll l).env.decSent = σ.env.decSent ++ e := by
  induction l using List.reverseRecOn with
  | nil => exact ⟨[], (List.append_nil _).symm, (List.append_nil _).symm⟩
  | append_singleton l i ih =>
    obtain ⟨hl, hi⟩ := List.forall_mem_append.mp hl
    obtain ⟨e, hout, hsent⟩ := ih hl
    obtain ⟨b, hb⟩ := encode_of_decOp (hi i (List.mem_singleton_self i))
    refine ⟨e ++ decBeats (σ.afterAll l).machine.block.pending i, ?_, ?_⟩ <;> rw [Session.afterAll_snoc]
    · simp [hb, hout]
    · simp [hsent]

/-- So what the stream has gained tells what the record has gained. -/
theorem Session.afterAll_decSent_of_decOut {l : List Instr} (hl : ∀ i ∈ l, isDecOp i = true) {σ : Session}
    {e : List (Beat Byte)} (h : (σ.afterAll l).env.decOut = σ.env.decOut ++ e) :
    (σ.afterAll l).env.decSent = σ.env.decSent ++ e := by
  obtain ⟨e', hout, hsent⟩ := σ.afterAll_decOps_adds l hl
  obtain rfl := List.append_cancel_left (h.symm.trans hout)
  exact hsent

theorem isDecOp_of_mem_map_decPut (T : List TextUnit) : ∀ i ∈ T.map Instr.decPut, isDecOp i = true := by
  simp [isDecOp, placeOf]

theorem isDecOp_of_mem_decodeOps (T : List TextUnit) : ∀ i ∈ decodeOps T, isDecOp i = true :=
  List.forall_mem_append.mpr ⟨isDecOp_of_mem_map_decPut T, by simp [isDecOp, placeOf]⟩

/-- Settles O60: the record gains the bytes of the first text, nothing at `RESET`, and the second message; the stream is empty from
`RESET` on. -/
theorem resetCutsTheMessage : Obligations.ResetCutsTheMessage := by
  intro T1 T2 σ hphase
  obtain ⟨-, hout₁⟩ := σ.afterAll_decPut T1 (Block.pending_of_HI hphase)
  have hsent₁ := Session.afterAll_decSent_of_decOut (isDecOp_of_mem_map_decPut T1) hout₁
  have henv := (σ.afterAll (T1.map .decPut)).after_reset_env
  obtain ⟨τ, hτ, hout₂, -⟩ := decodeOpsComputeDecode T2 ((σ.afterAll (T1.map .decPut)).after .reset) rfl
  obtain rfl := Host.Outcome.next.inj ((Session.performAll_eq_afterAll _ _).symm.trans hτ)
  have hsent₂ := Session.afterAll_decSent_of_decOut (isDecOp_of_mem_decodeOps T2) hout₂
  refine ⟨_, σ.performAll_eq_afterAll _, ?_, ?_⟩ <;> rw [Session.afterAll_append]
  · exact hsent₂.trans (by rw [henv, Env.restart_decSent, hsent₁])
  · exact hout₂.trans (by rw [henv, Env.restart_decOut, List.nil_append])

end Sys2Proof.Machine
end

section
/-! One symbol of an encoded text changed or lost (70_reset R256). -/

namespace Sys2Proof.Machine.Codec

/-! ## A symbol changed into another -/

/-- The byte `b` with the nibble of symbol `k` of its text set to `v`: the high one for even `k` (41_encoder R132). -/
def withNibble (k : Nat) (v : Nibble) (b : Byte) : Byte :=
  if k % 2 = 0 then joinNibbles v (loNibble b) else joinNibbles (hiNibble b) v

section
variable {w : Nat} (A : Alphabet w)

/-- A text with one symbol changed is the text of the buffer with one byte changed (70_reset R256). -/
theorem encodeBytes_set (v : Nibble) : ∀ {B : List Byte} {k : Nat} {b : Byte}, B[k / 2]? = some b →
    (encodeBytes A B).set k (A.symbol v) = encodeBytes A (B.set (k / 2) (withNibble k v b))
  | [], _, _, h => by simp at h
  | c :: B, 0, b, h => by
    obtain rfl : c = b := by simpa using h
    simp [encodeBytes, withNibble, n2s, romRead]
  | c :: B, 1, b, h => by
    obtain rfl : c = b := by simpa using h
    simp [encodeBytes, withNibble, n2s, romRead]
  | c :: B, k + 2, b, h => by
    have hdiv : (k + 2) / 2 = k / 2 + 1 := Nat.add_div_right k Nat.two_pos
    have hnibble : withNibble (k + 2) v b = withNibble k v b := by rw [withNibble, Nat.add_mod_right, withNibble]
    rw [hdiv, List.getElem?_cons_succ] at h
    rw [hdiv, hnibble, List.set_cons_succ, encodeBytes, encodeBytes, ← encodeBytes_set v h]
    rfl

theorem decodeText_set {v : Nibble} {B : List Byte} {k : Nat} {b : Byte} (h : B[k / 2]? = some b) :
    decodeText A ((encodeBytes A B).set k (A.symbol v)) = B.set (k / 2) (withNibble k v b) := by
  rw [encodeBytes_set A v h, decodeText_encodeBytes]

/-- The byte is as it was only where the symbol is (70_reset R256). -/
theorem getElem?_encodeBytes_of_withNibble_eq {v : Nibble} {B : List Byte} {k : Nat} {b : Byte} (h : B[k / 2]? = some b)
    (hb : withNibble k v b = b) : (encodeBytes A B)[k]? = some (A.symbol v) := by
  obtain ⟨hlt, hget⟩ := List.getElem?_eq_some_iff.mp h
  have hset := encodeBytes_set A v h
  rw [hb, ← hget, List.set_getElem_self] at hset
  rw [← hset, List.getElem?_set_self (by rw [length_encodeBytes]; omega)]

/-! ## A symbol lost -/

/-- In place of a symbol, a unit outside the alphabet is as good as none (42_decoder R150). -/
theorem decodeText_set_of_unrecognised {u : BitVec w} (hu : isRecognised A u = false) (T : List (BitVec w)) {k : Nat}
    (hk : k < T.length) : decodeText A (T.set k u) = decodeText A (T.eraseIdx k) := by
  rw [decodeText, decodeText, List.set_eq_take_append_cons_drop, if_pos hk, List.eraseIdx_eq_take_drop_succ, recNibbles_append,
    recNibbles_append, recNibbles_cons_miss A ((isRecognised_eq_false_iff A u).mp hu)]

/-- A text without one symbol has the nibbles of the buffer without one (41_encoder R132). -/
theorem decodeText_eraseIdx (B : List Byte) (k : Nat) :
    decodeText A ((encodeBytes A B).eraseIdx k) = pack ((bufferNibbles B).eraseIdx k) := by
  rw [decodeText, encodeBytes_eq_map_symbol, List.eraseIdx_map, recNibbles_map_symbol]

end

theorem joinNibbles_eq_iff (h l : Nibble) (b : Byte) : joinNibbles h l = b ↔ h = hiNibble b ∧ l = loNibble b := by
  constructor
  · rintro rfl
    simp
  · rintro ⟨rfl, rfl⟩
    simp

/-- Byte `j` is made of the nibbles `2 * j` and `2 * j + 1` (42_decoder R152). -/
theorem getElem?_pack_eq_some_iff : ∀ (l : List Nibble) (j : Nat) (b : Byte),
    (pack l)[j]? = some b ↔ l[2 * j]? = some (hiNibble b) ∧ l[2 * j + 1]? = some (loNibble b)
  | [], _, _ => by simp [pack]
  | [_], _, _ => by simp [pack]
  | h :: l :: _, 0, b => by simp [pack, joinNibbles_eq_iff]
  | _ :: _ :: rest, j + 1, b => getElem?_pack_eq_some_iff rest j b

theorem getElem?_pack {l : List Nibble} {j : Nat} {h v : Nibble} (hh : l[2 * j]? = some h) (hv : l[2 * j + 1]? = some v) :
    (pack l)[j]? = some (joinNibbles h v) := by
  simp [getElem?_pack_eq_some_iff, hh, hv]

theorem pack_bufferNibbles (B : List Byte) : pack (bufferNibbles B) = B := by
  induction B with
  | nil => rfl
  | cons b B ih => simp [pack, ih]

/-- Where the nibbles of byte `j` stand in the buffer (41_encoder R132). -/
theorem getElem?_bufferNibbles {B : List Byte} {j : Nat} {b : Byte} (h : B[j]? = some b) :
    (bufferNibbles B)[2 * j]? = some (hiNibble b) ∧ (bufferNibbles B)[2 * j + 1]? = some (loNibble b) := by
  rw [← getElem?_pack_eq_some_iff, pack_bufferNibbles, h]

section
variable {B : List Byte} {k : Nat}

theorem length_pack_eraseIdx (hk : k < 2 * B.length) : (pack ((bufferNibbles B).eraseIdx k)).length = B.length - 1 := by
  rw [length_pack, List.length_eraseIdx_of_lt (by rwa [length_bufferNibbles]), length_bufferNibbles]
  omega

/-- Bytes wholly before the lost nibble are as they were (70_reset R256). -/
theorem getElem?_pack_eraseIdx_before {j : Nat} (hj : j < k / 2) :
    (pack ((bufferNibbles B).eraseIdx k))[j]? = B[j]? := by
  ext b
  rw [getElem?_pack_eq_some_iff, List.getElem?_eraseIdx_of_lt (by omega), List.getElem?_eraseIdx_of_lt (by omega),
    ← getElem?_pack_eq_some_iff, pack_bufferNibbles]

/-- The byte of the lost nibble has the nibble that is left of it, and the next byte's first (70_reset R256). -/
theorem getElem?_pack_eraseIdx_at {b b' : Byte} (hb : B[k / 2]? = some b) (hb' : B[k / 2 + 1]? = some b') :
    (pack ((bufferNibbles B).eraseIdx k))[k / 2]? =
      some (joinNibbles (if k % 2 = 0 then loNibble b else hiNibble b) (hiNibble b')) := by
  obtain ⟨hhi, hlo⟩ := getElem?_bufferNibbles hb
  obtain ⟨hhi', -⟩ := getElem?_bufferNibbles hb'
  refine getElem?_pack ?_ ?_
  · split_ifs with heven
    · rw [List.getElem?_eraseIdx_of_ge (by omega), hlo]
    · rw [List.getElem?_eraseIdx_of_lt (by omega), hhi]
  · rw [List.getElem?_eraseIdx_of_ge (by omega)]
    exact hhi'

/-- Later bytes have the second nibble of one byte and the first of the next (70_reset R256). -/
theorem getElem?_pack_eraseIdx_after {j : Nat} (hj : k / 2 < j) {b b' : Byte} (hb : B[j]? = some b)
    (hb' : B[j + 1]? = some b') :
    (pack ((bufferNibbles B).eraseIdx k))[j]? = some (joinNibbles (loNibble b) (hiNibble b')) := by
  obtain ⟨-, hlo⟩ := getElem?_bufferNibbles hb
  obtain ⟨hhi', -⟩ := getElem?_bufferNibbles hb'
  refine getElem?_pack ?_ ?_
  · rw [List.getElem?_eraseIdx_of_ge (by omega), hlo]
  · rw [List.getElem?_eraseIdx_of_ge (by omega)]
    exact hhi'

end
end Sys2Proof.Machine.Codec

namespace Sys2Proof.Machine

open Sys2Proof.Machine.Codec

/-- Settles O59: the text is that of the buffer with the one byte changed. -/
theorem changedSymbolDamagesItsByte : Obligations.ChangedSymbolDamagesItsByte := by
  intro w A B k v b hb
  obtain ⟨hlt, -⟩ := List.getElem?_eq_some_iff.mp hb
  rw [decodeText_set A hb, List.getElem?_set_self hlt]
  refine ⟨List.length_set, rfl, fun hne heq => ?_, fun j hj => List.getElem?_set_ne hj.symm⟩
  exact hne (getElem?_encodeBytes_of_withNibble_eq A hb (Option.some.inj heq))

/-- Settles O58: from the lost nibble on, every nibble stands one place further left. -/
theorem lostSymbolShiftsTheRest : Obligations.LostSymbolShiftsTheRest := by
  intro w A B k hk
  refine ⟨?_, ?_, fun b b' hb hb' => ?_, fun j b b' hj hb hb' => ?_, fun u hu => ?_⟩
  · rw [decodeText_eraseIdx, length_pack_eraseIdx hk]
  · refine List.ext_getElem? fun j => ?_
    rw [decodeText_eraseIdx, List.getElem?_take, List.getElem?_take]
    split_ifs with hj
    · exact getElem?_pack_eraseIdx_before hj
    · rfl
  · rw [decodeText_eraseIdx, getElem?_pack_eraseIdx_at hb hb']
  · rw [decodeText_eraseIdx, getElem?_pack_eraseIdx_after hj hb hb']
  · exact decodeText_set_of_unrecognised A hu _ (by rwa [length_encodeBytes])

end Sys2Proof.Machine
end
